-- ==== Sys2Proof/Word.lean ====
section
/-! DEFINITION. The word types of AENV: octets, 32-bit register words, aperture offsets (00_scope.md R13, R14; 20_memory.md R60). -/

namespace Sys2Proof

/-- An octet (R13). -/
abbrev Byte := BitVec 8

/-- A word: 32 bits, unsigned, arithmetic modulo 2^32 (R14). -/
abbrev Word := BitVec 32

/-- A byte offset within the 16 KiB aperture, 0x0000 to 0x3FFF (R60). -/
abbrev Offset := BitVec 14

end Sys2Proof
end

