-- ==== Sys2Proof/Machine/Bytes.lean ====
section
/-! DEFINITION. Byte order and slicing (00_scope.md R13, R14; 20_memory.md R69, R70). -/

namespace Sys2Proof.Machine

/-- Byte j of a word, counted from its least significant byte: bits [8j+7 : 8j] (R69). -/
def wordByte (w : Word) (j : Nat) : Byte := w.extractLsb' (8 * j) 8

/-- `LE32(b)` of the four bytes b[0], b[1], b[2], b[3] (R14). -/
def le32 (b0 b1 b2 b3 : Byte) : Word := b3 ++ b2 ++ b1 ++ b0

/-- `BE32(b)` of the four bytes b[0], b[1], b[2], b[3] (R14). -/
def be32 (b0 b1 b2 b3 : Byte) : Word := b0 ++ b1 ++ b2 ++ b3

/-- The four bytes whose `LE32` is the word, in rising index (R69). -/
def leBytes (w : Word) : List Byte := [wordByte w 0, wordByte w 1, wordByte w 2, wordByte w 3]

/-- `BE32⁻¹(w)`: the four bytes of the word, most significant first (41_sha256_hmac.md R147). -/
def beBytes (w : Word) : List Byte := [wordByte w 3, wordByte w 2, wordByte w 1, wordByte w 0]

/-- `BE64(x)`: the eight bytes of x, most significant first (41_sha256_hmac.md R141). -/
def be64Bytes (x : BitVec 64) : List Byte :=
  beBytes (x.extractLsb' 32 32) ++ beBytes (x.extractLsb' 0 32)

/-- Byte i of a sequence (R13); read only below the sequence's length. -/
def byteAt (b : List Byte) (i : Nat) : Byte := b.getD i 0

/-- The first n consecutive pieces of k elements of a sequence: `b[k(i-1) : ki]` for i = 1..n (40_aes.md R110, 41_sha256_hmac.md R142). -/
def chunks {α : Type} (k : Nat) : Nat → List α → List (List α)
  | 0, _ => []
  | n + 1, b => b.take k :: chunks k n (b.drop k)

end Sys2Proof.Machine
end

