-- ==== Sys2Proof/Machine/AesCipher.lean ====
section
/-! DEFINITION. The AES-128 unit: the transformations, the key expansion, the two block functions and the ECB and CBC modes
(00_scope.md R17; 40_aes.md R100 to R112). -/

namespace Sys2Proof.Machine

/-- One column of the AES state, rows 0 to 3, or one four-byte word of the key expansion (R100, R104). -/
structure Col where
  r0 : Byte
  r1 : Byte
  r2 : Byte
  r3 : Byte
deriving DecidableEq, Repr

/-- The AES state, four columns (R100): byte `s[r, c]` is row r of column c. -/
structure Block where
  c0 : Col
  c1 : Col
  c2 : Col
  c3 : Col
deriving DecidableEq, Repr

/-- `xtime(a)` (R17). -/
def xtime (a : Byte) : Byte := (a <<< 1) ^^^ (if a.getLsbD 7 then 0x1B else 0)

/-- `xtime` applied n times to a: the product of a and x^n. -/
def xtimes : Nat → Byte → Byte
  | 0, a => a
  | n + 1, a => xtime (xtimes n a)

/-- The product of b and the terms x^0 .. x^(n-1) of a that a has. -/
def gfPartial (a b : Byte) : Nat → Byte
  | 0 => 0
  | n + 1 => gfPartial a b n ^^^ (if a.getLsbD n then xtimes n b else 0)

/-- The field product `a • b` in GF(2^8) with reduction polynomial 0x11B (R17). -/
def gfMul (a b : Byte) : Byte := gfPartial a b 8

/-! ## The S-box and its inverse -/

/-- `SBOX` (R102), one number per table row, the row's first byte most significant. -/
def sboxRows : List Nat :=
  [0x637c777bf26b6fc53001672bfed7ab76, 0xca82c97dfa5947f0add4a2af9ca472c0,
   0xb7fd9326363ff7cc34a5e5f171d83115, 0x04c723c31896059a071280e2eb27b275,
   0x09832c1a1b6e5aa0523bd6b329e32f84, 0x53d100ed20fcb15b6acbbe394a4c58cf,
   0xd0efaafb434d338545f9027f503c9fa8, 0x51a3408f929d38f5bcb6da2110fff3d2,
   0xcd0c13ec5f974417c4a77e3d645d1973, 0x60814fdc222a908846eeb814de5e0bdb,
   0xe0323a0a4906245cc2d3ac629195e479, 0xe7c8376d8dd54ea96c56f4ea657aae08,
   0xba78252e1ca6b4c6e8dd741f4bbd8b8a, 0x703eb5664803f60e613557b986c11d9e,
   0xe1f8981169d98e949b1e87e9ce5528df, 0x8ca1890dbfe6426841992d0fb054bb16]

/-- `INV_SBOX` (R103), laid out as `sboxRows`. -/
def invSboxRows : List Nat :=
  [0x52096ad53036a538bf40a39e81f3d7fb, 0x7ce339829b2fff87348e4344c4dee9cb,
   0x547b9432a6c2233dee4c950b42fac34e, 0x082ea16628d924b2765ba2496d8bd125,
   0x72f8f66486689816d4a45ccc5d65b692, 0x6c704850fdedb9da5e154657a78d9d84,
   0x90d8ab008cbcd30af7e45805b8b34506, 0xd02c1e8fca3f0f02c1afbd0301138a6b,
   0x3a9111414f67dcea97f2cfcef0b4e673, 0x96ac7422e7ad3585e2f937e81c75df6e,
   0x47f11a711d29c5896fb7620eaa18be1b, 0xfc563e4bc6d279209adbc0fe78cd5af4,
   0x1fdda8338807c731b11210592780ec5f, 0x60517fa919b54a0d2de57a9f93c99cef,
   0xa0e03b4dae2af5b0c8ebbb3c83539961, 0x172b047eba77d626e169146355210c7d]

/-- The byte of a 16 × 16 table at x: row the high hex digit, column the low one (R102). -/
def tableByte (rows : List Nat) (x : Byte) : Byte :=
  BitVec.ofNat 8 (rows.getD (x.toNat / 16) 0 >>> (8 * (15 - x.toNat % 16)))

/-- `SBOX[x]` (R101, R102). -/
def sbox (x : Byte) : Byte := tableByte sboxRows x

/-- `INV_SBOX[x]` (R101, R103). -/
def invSbox (x : Byte) : Byte := tableByte invSboxRows x

/-! ## Columns and blocks -/

def Col.map (f : Byte → Byte) (a : Col) : Col := ⟨f a.r0, f a.r1, f a.r2, f a.r3⟩

def Col.xor (a b : Col) : Col := ⟨a.r0 ^^^ b.r0, a.r1 ^^^ b.r1, a.r2 ^^^ b.r2, a.r3 ^^^ b.r3⟩

def Block.mapCols (f : Col → Col) (s : Block) : Block := ⟨f s.c0, f s.c1, f s.c2, f s.c3⟩

/-- Bytewise XOR of two blocks (R14). -/
def Block.xor (a b : Block) : Block := ⟨a.c0.xor b.c0, a.c1.xor b.c1, a.c2.xor b.c2, a.c3.xor b.c3⟩

def Col.bytes (a : Col) : List Byte := [a.r0, a.r1, a.r2, a.r3]

/-- The sixteen bytes of a block: `out[r + 4c] = s[r, c]` (R100). -/
def Block.bytes (s : Block) : List Byte := s.c0.bytes ++ s.c1.bytes ++ s.c2.bytes ++ s.c3.bytes

/-- Four bytes of a sequence from index i on, as a column. -/
def colAt (b : List Byte) (i : Nat) : Col := ⟨byteAt b i, byteAt b (i + 1), byteAt b (i + 2), byteAt b (i + 3)⟩

/-- The block of a sixteen-byte sequence: `s[r, c] = in[r + 4c]` (R100). -/
def blockOf (b : List Byte) : Block := ⟨colAt b 0, colAt b 4, colAt b 8, colAt b 12⟩

/-- The blocks `P_i = P[16(i-1) : 16i]` of a sequence (R110). -/
def blocksOf (b : List Byte) : List Block := (chunks 16 (b.length / 16) b).map blockOf

/-- The concatenation of blocks. -/
def blocksBytes (l : List Block) : List Byte := l.flatMap Block.bytes

/-! ## The transformations -/

/-- SubBytes (R101). -/
def subBytes (s : Block) : Block := s.mapCols (Col.map sbox)

/-- InvSubBytes (R101). -/
def invSubBytes (s : Block) : Block := s.mapCols (Col.map invSbox)

/-- ShiftRows: `s'[r, c] = s[r, (c + r) mod 4]` (R105). -/
def shiftRows (s : Block) : Block :=
  ⟨⟨s.c0.r0, s.c1.r1, s.c2.r2, s.c3.r3⟩, ⟨s.c1.r0, s.c2.r1, s.c3.r2, s.c0.r3⟩,
   ⟨s.c2.r0, s.c3.r1, s.c0.r2, s.c1.r3⟩, ⟨s.c3.r0, s.c0.r1, s.c1.r2, s.c2.r3⟩⟩

/-- InvShiftRows: `s'[r, c] = s[r, (c - r) mod 4]` (R105). -/
def invShiftRows (s : Block) : Block :=
  ⟨⟨s.c0.r0, s.c3.r1, s.c2.r2, s.c1.r3⟩, ⟨s.c1.r0, s.c0.r1, s.c3.r2, s.c2.r3⟩,
   ⟨s.c2.r0, s.c1.r1, s.c0.r2, s.c3.r3⟩, ⟨s.c3.r0, s.c2.r1, s.c1.r2, s.c0.r3⟩⟩

/-- A matrix of MixColumns' shape times a column: the first matrix row is m0 m1 m2 m3 and each next row is the one above
rotated right by one place (R106). -/
def mixWith (m0 m1 m2 m3 : Byte) (a : Col) : Col :=
  ⟨gfMul m0 a.r0 ^^^ gfMul m1 a.r1 ^^^ gfMul m2 a.r2 ^^^ gfMul m3 a.r3,
   gfMul m3 a.r0 ^^^ gfMul m0 a.r1 ^^^ gfMul m1 a.r2 ^^^ gfMul m2 a.r3,
   gfMul m2 a.r0 ^^^ gfMul m3 a.r1 ^^^ gfMul m0 a.r2 ^^^ gfMul m1 a.r3,
   gfMul m1 a.r0 ^^^ gfMul m2 a.r1 ^^^ gfMul m3 a.r2 ^^^ gfMul m0 a.r3⟩

/-- MixColumns (R106). -/
def mixColumns (s : Block) : Block := s.mapCols (mixWith 0x02 0x03 0x01 0x01)

/-- InvMixColumns (R106). -/
def invMixColumns (s : Block) : Block := s.mapCols (mixWith 0x0e 0x0b 0x0d 0x09)

/-- AddRoundKey with a given round key (R107). -/
def addRoundKey (rk s : Block) : Block := s.xor rk

/-! ## Key expansion (R104) -/

/-- `RCON[j] = xtime^(j-1)(0x01)` (R104), for j = 1..10. -/
def rcon (j : Nat) : Byte := xtimes (j - 1) 0x01

/-- RotWord: (a0,a1,a2,a3) -> (a1,a2,a3,a0). -/
def rotWord (a : Col) : Col := ⟨a.r1, a.r2, a.r3, a.r0⟩

/-- The word t of a multiple-of-four index: RotWord, then SubWord, then RCON on its byte 0. -/
def keyCore (rc : Byte) (a : Col) : Col := ((rotWord a).map sbox).xor ⟨rc, 0, 0, 0⟩

/-- The words w[4n+4 .. 4n+7] from the words w[4n .. 4n+3], with rc = RCON[n+1]. -/
def nextKey (rc : Byte) (k : Block) : Block :=
  let w0 := k.c0.xor (keyCore rc k.c3)
  let w1 := k.c1.xor w0
  let w2 := k.c2.xor w1
  let w3 := k.c3.xor w2
  ⟨w0, w1, w2, w3⟩

/-- `RoundKey[n]`, n = 0..10 (R104). -/
def roundKey (k : Block) : Nat → Block
  | 0 => k
  | n + 1 => nextKey (rcon (n + 1)) (roundKey k n)

/-! ## The block functions -/

/-- The forward cipher's state after rounds 0..n, each with MixColumns (R108). -/
def encRounds (k : Block) : Nat → Block → Block
  | 0, x => addRoundKey (roundKey k 0) x
  | n + 1, x => addRoundKey (roundKey k (n + 1)) (mixColumns (shiftRows (subBytes (encRounds k n x))))

/-- `AES_E(K, in)` (R108). -/
def aesE (k x : Block) : Block :=
  addRoundKey (roundKey k 10) (shiftRows (subBytes (encRounds k 9 x)))

/-- The inverse cipher's rounds n down to 1 (R109). -/
def decRounds (k : Block) : Nat → Block → Block
  | 0, s => s
  | n + 1, s => decRounds k n (invMixColumns (addRoundKey (roundKey k (n + 1)) (invSubBytes (invShiftRows s))))

/-- `AES_D(K, in)` (R109). -/
def aesD (k x : Block) : Block :=
  addRoundKey (roundKey k 0) (invSubBytes (invShiftRows (decRounds k 9 (addRoundKey (roundKey k 10) x))))

/-! ## The modes -/

/-- `ECB_E(K, P)` (R110). -/
def ecbE (k : Block) (p : List Block) : List Block := p.map (aesE k)

/-- `ECB_D(K, C)` (R110). -/
def ecbD (k : Block) (c : List Block) : List Block := c.map (aesD k)

/-- `CBC_E(K, IV, P)`: `C_i = AES_E(K, P_i ⊕ C_{i-1})`, the second argument C_{i-1} (R111). -/
def cbcE (k : Block) : Block → List Block → List Block
  | _, [] => []
  | prev, p :: ps => aesE k (p.xor prev) :: cbcE k (aesE k (p.xor prev)) ps

/-- `CBC_D(K, IV, C)`: `P_i = AES_D(K, C_i) ⊕ C_{i-1}`, the second argument C_{i-1} (R112). -/
def cbcD (k : Block) : Block → List Block → List Block
  | _, [] => []
  | prev, c :: cs => (aesD k c).xor prev :: cbcD k c cs

end Sys2Proof.Machine
end

