-- ==== Sys2Proof/Config.lean ====
section
/-! DEFINITION. What an implementation of AENV fixes, and the free values: constants with no body, so that nothing can be proved of them
(00_scope.md R10; 93_implementation_defined.md section 2). -/

namespace Sys2Proof

/-- One answer of the external random source: `ok` with the port's 128-bit `rng_data`, or `fail` (60_exceptions.md R240). -/
inductive RngAnswer where
  | ok (data : BitVec 128)
  | fail
deriving DecidableEq, Repr, Inhabited

/-- The BUF_SIZE of R10 where the platform chooses none: 4096, the PARAM value after reset (10_state.md R21). -/
def Config.defaultBufSize : Nat := 4096

/-- The BUF_SIZE values R10 admits: a multiple of 16 in [64, 4096]. -/
abbrev Config.LegalBufSize (n : Nat) : Prop := 64 ≤ n ∧ n ≤ 4096 ∧ n % 16 = 0

/-- FREE VALUE (log 4, 5). The value of the n-th unspecified byte read since power-on: a buffer byte never written since
reset (70_reset_and_hazards.md R261), or a byte of an OUT_BUF word read while busy (20_memory.md R67). -/
opaque Config.freeByte : Nat → Byte

/-- FREE VALUE (log 6). The answer of the random source to the n-th draw, where State lists no answer
(60_exceptions.md R240: "a free input with no law"). -/
opaque Config.rngAnswer : Nat → RngAnswer

end Sys2Proof
end

