-- ==== Sys2Proof/Syntax.lean ====
section
/-! DEFINITION. The commands of AENV, one constructor per row of spec/opcode_table.json, and the fields of a CMD word
(30_encoding.md R80, R81). -/

namespace Sys2Proof

/-- The nine commands of R81. A command has no operand fields: all its operands are implicit (R80, R83). -/
inductive Instr where
  /-- ENCODE, 43_envelope.md R191. -/
  | envEncode
  /-- DECODE, 43_envelope.md R192. -/
  | envDecode
  /-- AES_ECB_ENC, 40_aes.md R120. -/
  | aesEcbEnc
  /-- AES_ECB_DEC, 40_aes.md R121. -/
  | aesEcbDec
  /-- AES_CBC_ENC, 40_aes.md R122. -/
  | aesCbcEnc
  /-- AES_CBC_DEC, 40_aes.md R123. -/
  | aesCbcDec
  /-- HMAC_SHA256, 41_sha256_hmac.md R155. -/
  | hmacSha256
  /-- PKCS7_PAD, 42_pkcs7.md R175. -/
  | pkcs7Pad
  /-- PKCS7_UNPAD, 42_pkcs7.md R176. -/
  | pkcs7Unpad
deriving DecidableEq, Repr

/-- The two fields of a CMD word: OPC in bits [7:0], RSV in bits [31:8] (R80). -/
structure CmdFields where
  opc : BitVec 8
  rsv : BitVec 24
deriving DecidableEq, Repr

/-- Why a CMD value decodes to Illegal (R82). Both have the one effect of R221. -/
inductive IllegalCmd where
  /-- RSV is not zero. -/
  | reservedBits
  /-- RSV is zero and OPC is a code R81 does not list. -/
  | reservedCode
deriving DecidableEq, Repr

end Sys2Proof
end

