-- ==== Sys2Proof/WellFormed.lean ====
section
/-! DEFINITION. The checks of a CMD word that R82 makes, each with its own name. -/

namespace Sys2Proof

/-- The OPC values R82 lists as commands. -/
def legalCodes : List (BitVec 8) := [0x01, 0x02, 0x10, 0x11, 0x12, 0x13, 0x20, 0x30, 0x31]

/-- The first check of R82: the reserved field is zero. -/
def CmdFields.rsvZero (f : CmdFields) : Bool := f.rsv == 0

/-- The second check of R82: OPC is a command's code. -/
def CmdFields.opcListed (f : CmdFields) : Bool := legalCodes.contains f.opc

/-- A CMD word's fields are well formed when both checks pass (R80, R82). -/
def CmdFields.wellFormed (f : CmdFields) : Bool := f.rsvZero && f.opcListed

/-- A command has no operand fields (R80), so every term of Instr is well formed. -/
def Instr.wellFormed (_ : Instr) : Bool := true

end Sys2Proof
end

