-- ==== Sys2Proof/Decode.lean ====
section
/-! DEFINITION. The decoder, total over all 2^32 CMD values (30_encoding.md R82), and the encoder (R80, R81). -/

namespace Sys2Proof

/-- The fields of a CMD value (R80). -/
def fieldsOf (v : Word) : CmdFields :=
  { opc := v.extractLsb' 0 8, rsv := v.extractLsb' 8 24 }

/-- The code table of R81. -/
def opcodeTable : List (BitVec 8 × Instr) :=
  [(0x01, .envEncode), (0x02, .envDecode),
   (0x10, .aesEcbEnc), (0x11, .aesEcbDec), (0x12, .aesCbcEnc), (0x13, .aesCbcDec),
   (0x20, .hmacSha256),
   (0x30, .pkcs7Pad), (0x31, .pkcs7Unpad)]

/-- The command of an OPC code, if R81 lists it. -/
def decodeOpc (c : BitVec 8) : Option Instr :=
  (opcodeTable.find? (fun row => row.1 == c)).map Prod.snd

/-- R82: a non-zero RSV is Illegal, else OPC selects a command of R81, else Illegal. -/
def decode (v : Word) : Except IllegalCmd Instr :=
  if (fieldsOf v).rsv ≠ 0 then .error .reservedBits
  else
    match decodeOpc (fieldsOf v).opc with
    | some i => .ok i
    | none => .error .reservedCode

/-- The OPC code of each command (R81). -/
def opcOf : Instr → BitVec 8
  | .envEncode => 0x01
  | .envDecode => 0x02
  | .aesEcbEnc => 0x10
  | .aesEcbDec => 0x11
  | .aesCbcEnc => 0x12
  | .aesCbcDec => 0x13
  | .hmacSha256 => 0x20
  | .pkcs7Pad => 0x30
  | .pkcs7Unpad => 0x31

/-- The CMD word of a command: RSV zero above its OPC code (R80). A command is always one 32-bit word. -/
def encode (i : Instr) : Word := 0#24 ++ opcOf i

/-- The decoder on an instruction's bits numbered as spec/opcode_table.json numbers them: bit 0 of w is bit 0 of the CMD
word, bits from nbits up are 0. A command is one 32-bit word (R80), so a longer one is none of AENV's. -/
def decodeTableWord (nbits w : Nat) : Option Instr :=
  if nbits ≤ 32 then
    match decode (BitVec.ofNat 32 (w % 2 ^ nbits)) with
    | .ok i => some i
    | .error _ => none
  else none

end Sys2Proof
end

