-- ==== Sys2Proof/Machine/State.lean ====
section
/-! DEFINITION. The state of AENV as plain data (10_state.md R20, R21), the events of its surroundings, and the state after reset
(70_reset_and_hazards.md R260). -/

namespace Sys2Proof.Machine

/-- AENV has no fault: it has no trap state, and a `buserr` is an answer to the host (93_implementation_defined.md section 2;
60_exceptions.md R236). No constructor, so no path can end in one (log 13; safe: nothing stops). -/
inductive Fault where
deriving DecidableEq, Repr

/-- Why the model gives an instruction no meaning. -/
inductive Refusal where
  /-- Raised only by an arm of `exec` that has no meaning yet; no arm raises it now. Safe: the model stops. -/
  | notModelled (mnemonic : String)
deriving DecidableEq, Repr

/-- The values of STATUS.ERR (60_exceptions.md R220). Codes 8 to 15 are never produced. -/
inductive ErrCode where
  | ok
  | malformedEnvelope
  | integrityFailure
  | invalidPadding
  | randomSourceFailure
  | illegalCommand
  | lengthError
  | keyNotLoaded
deriving DecidableEq, Repr

/-- The sequencer state (10_state.md R50). -/
inductive Sequencer where
  | idle
  | busy
deriving DecidableEq, Repr

/-- A byte buffer: the cells whose byte is listed, and what an unlisted byte reads as. `fill = none` is an unspecified byte
(70_reset_and_hazards.md R261); `fill = some 0` is the state a completion leaves OUT_BUF in (60_exceptions.md R225, R226).
`Memory.wf` of Machine/Ops.lean is its canonical form. -/
structure Memory where
  fill : Option Byte
  cells : List Host.Cell
deriving DecidableEq, Repr

/-- What an offset of the aperture names: the registers of 10_state.md R21 and the words of the two buffer windows
(20_memory.md R61). -/
inductive Location where
  | id
  | param
  | ctrl
  | cmd
  | status
  | len
  | outLen
  | ckey (i : Fin 4)
  | ikey (i : Fin 8)
  | iv (i : Fin 4)
  /-- Word k of IN_BUF, at offset 0x1000 + 4k (10_state.md R40). -/
  | inWord (k : Nat)
  /-- Word k of OUT_BUF, at offset 0x2000 + 4k (10_state.md R41). -/
  | outWord (k : Nat)
deriving DecidableEq, Repr

/-- A host bus access at an offset of the aperture (20_memory.md R60), of any width in bits; only 32 is answered `ok` (R62). -/
inductive BusAccess where
  | read (addr : Offset) (bits : Nat)
  | write (addr : Offset) (bits : Nat) (v : Word)
deriving DecidableEq, Repr

/-- The port's answer to an access (R60). -/
inductive BusResponse where
  /-- A read's `ok(data)`. -/
  | okData (data : Word)
  /-- A write's `ok`. -/
  | ok
  /-- `buserr`: the access changed no AENV state. -/
  | buserr
deriving DecidableEq, Repr

/-- One event: host accesses and completion steps in the order of 20_memory.md R74, with the resets among them (log 24). Which event is
next is plain data (log 1). -/
inductive Input where
  /-- The next host access in arrival order (R74). -/
  | access (a : BusAccess)
  /-- The sequencer's turn: where it is busy it takes its completion step (60_exceptions.md R224). -/
  | sequencer
  /-- The reset input is asserted (70_reset_and_hazards.md R260). DESIGN CHOICE (log 24; unsafe for accesses under an asserted reset):
  the spec does not say where an assertion falls among the accesses or how long it lasts; here it is one momentary event between two
  others, so no access meets an asserted reset. -/
  | reset
deriving DecidableEq, Repr

/-- The state of AENV. The fields up to `outBuf` are the spec's (10_state.md R20), the others the model's own. -/
structure State where
  /-- CTRL.IRQ_EN (R24). -/
  irqEn : Bool
  /-- CTRL.STRICT_PAD (R24). -/
  strictPad : Bool
  /-- CTRL.KEY_LOCK (R24). -/
  keyLock : Bool
  /-- CMD (R28). -/
  cmd : Word
  /-- STATUS.DONE (R29). -/
  done : Bool
  /-- STATUS.WERR (R29). -/
  werr : Bool
  /-- STATUS.ERR (R29, R220). -/
  err : ErrCode
  /-- LEN (R31). -/
  len : Word
  /-- OUT_LEN (R32). -/
  outLen : Word
  /-- CKEY0..CKEY3 (R33). -/
  ckey : Vector Word 4
  /-- IKEY0..IKEY7 (R34). -/
  ikey : Vector Word 8
  /-- IV0..IV3 (R37). -/
  iv : Vector Word 4
  /-- `ck_written[3:0]` (R45). -/
  ckWritten : BitVec 4
  /-- `ik_written[7:0]` (R45). -/
  ikWritten : BitVec 8
  /-- The sequencer state, which is STATUS.BUSY (R50). The running command is the one CMD decodes to (R84, log 11). -/
  seq : Sequencer
  /-- IN_BUF (R40). -/
  inBuf : Memory
  /-- OUT_BUF (R41). -/
  outBuf : Memory
  /-- BUF_SIZE, the model's parameter (00_scope.md R10), read back as PARAM (R23); no step changes it (log 7). -/
  bufSize : Nat
  /-- How many unspecified bytes have been read: the argument of `Config.freeByte` (log 4). -/
  freeCount : Nat
  /-- The random source's answers still to come (60_exceptions.md R240, log 6). -/
  rngAnswers : List RngAnswer
  /-- How many draws have been taken: the argument of `Config.rngAnswer` (log 6). -/
  rngCount : Nat
  /-- The events still to come, in order (20_memory.md R74, log 1). -/
  inputs : List Input
  /-- The port's answer to the latest access, none before the first (R60, log 8). -/
  response : Option BusResponse
deriving DecidableEq, Repr

/-- The machine right after reset (70_reset_and_hazards.md R260): every register 0, the sequencer idle, no buffer byte
specified (R261). BUF_SIZE has its default (R10, R21), nothing of the surroundings has happened (log 1, 4, 6, 8). -/
def State.reset : State where
  irqEn := false
  strictPad := false
  keyLock := false
  cmd := 0
  done := false
  werr := false
  err := .ok
  len := 0
  outLen := 0
  ckey := Vector.replicate 4 0
  ikey := Vector.replicate 8 0
  iv := Vector.replicate 4 0
  ckWritten := 0
  ikWritten := 0
  seq := .idle
  inBuf := { fill := none, cells := [] }
  outBuf := { fill := none, cells := [] }
  bufSize := Config.defaultBufSize
  freeCount := 0
  rngAnswers := []
  rngCount := 0
  inputs := []
  response := none

/-- What a command or a step answers. -/
abbrev Result := Host.Outcome State Fault Refusal

end Sys2Proof.Machine
end

