-- ==== Sys2Proof/Machine/Ops.lean ====
section
/-! DEFINITION. The named operations over the buffers, the random-source port and the registers that commands write: buffer reads and
writes, draws, command start, successful completion, error completion and reset. -/

namespace Sys2Proof.Machine

/-! ## Buffers (10_state.md R40, R41) -/

/-- What a byte reads as that the buffer does not list. -/
def Memory.unlisted (m : Memory) : Option Byte := m.fill

/-- The byte listed at an index. -/
def lookupCell : List Host.Cell → Nat → Option Byte
  | [], _ => none
  | (k, b) :: rest, a => if a = k then some b else lookupCell rest a

/-- Byte a of a buffer; `none` where it is unspecified (70_reset_and_hazards.md R261). -/
def Memory.get (m : Memory) (a : Nat) : Option Byte :=
  match lookupCell m.cells a with
  | some b => some b
  | none => m.unlisted

/-- The cells with byte b at index a, in canonical form for the given unlisted value. -/
def insertCell (fill : Option Byte) : List Host.Cell → Nat → Byte → List Host.Cell
  | [], a, b => if some b = fill then [] else [(a, b)]
  | (k, x) :: rest, a, b =>
    if a < k then (if some b = fill then (k, x) :: rest else (a, b) :: (k, x) :: rest)
    else if a = k then (if some b = fill then rest else (a, b) :: rest)
    else (k, x) :: insertCell fill rest a b

/-- `Buf[a] <- b`. -/
def Memory.set (m : Memory) (a : Nat) (b : Byte) : Memory :=
  { m with cells := insertCell m.unlisted m.cells a b }

/-- A word write at word index k: `Buf[4k + j] <- v[8j+7 : 8j]` for j = 0..3 (R40, 20_memory.md R69). -/
def Memory.setWord (m : Memory) (k : Nat) (v : Word) : Memory :=
  (((m.set (4 * k) (wordByte v 0)).set (4 * k + 1) (wordByte v 1)).set (4 * k + 2) (wordByte v 2)).set (4 * k + 3)
    (wordByte v 3)

/-- The bytes of a sequence from index a on, as cells, without the zero bytes. -/
def nonzeroCells : Nat → List Byte → List Host.Cell
  | _, [] => []
  | a, b :: rest => if b = 0 then nonzeroCells (a + 1) rest else (a, b) :: nonzeroCells (a + 1) rest

/-- The buffer that holds `out` from byte 0 on and 0x00 in every other byte (60_exceptions.md R225). -/
def Memory.ofOutput (out : List Byte) : Memory :=
  { fill := some 0, cells := nonzeroCells 0 out }

/-- Cells in strictly rising index. -/
def cellsRising : List Host.Cell → Bool
  | [] => true
  | [_] => true
  | c :: d :: rest => decide (c.1 < d.1) && cellsRising (d :: rest)

/-- The canonical form of a buffer: indices strictly rising, no cell equal to what an unlisted byte reads as. -/
def Memory.wf (m : Memory) : Bool :=
  cellsRising m.cells && m.cells.all (fun c => decide (some c.2 ≠ m.unlisted))

/-- Every listed byte lies below the bound. -/
def Memory.below (m : Memory) (n : Nat) : Bool := m.cells.all (fun c => decide (c.1 < n))

/-- The n bytes of a buffer from index a on, each unspecified one a fresh free value (R261), and the free-value counter
after them, where f is the counter before. -/
def Memory.readBytes (m : Memory) : Nat → Nat → Nat → List Byte × Nat
  | _, 0, f => ([], f)
  | a, n + 1, f =>
    match m.get a with
    | some b => (b :: (m.readBytes (a + 1) n f).1, (m.readBytes (a + 1) n f).2)
    | none => (Config.freeByte f :: (m.readBytes (a + 1) n (f + 1)).1, (m.readBytes (a + 1) n (f + 1)).2)

/-- `LE32` of the first four bytes of a sequence (R14). -/
def wordOf (b : List Byte) : Word := le32 (byteAt b 0) (byteAt b 1) (byteAt b 2) (byteAt b 3)

/-- A word read at word index k: `LE32(Buf[4k : 4k+4])` (R40, R41), and the state after its draws. -/
def readBufWord (m : Memory) (k : Nat) (s : State) : Word × State :=
  (wordOf (m.readBytes (4 * k) 4 s.freeCount).1, { s with freeCount := (m.readBytes (4 * k) 4 s.freeCount).2 })

/-- An unspecified word: four fresh free bytes (20_memory.md R67), and the state after them. -/
def freeWord (s : State) : Word × State :=
  (le32 (Config.freeByte s.freeCount) (Config.freeByte (s.freeCount + 1)) (Config.freeByte (s.freeCount + 2))
      (Config.freeByte (s.freeCount + 3)),
    { s with freeCount := s.freeCount + 4 })

/-! ## The random-source port (60_exceptions.md R240) -/

/-- The answer of the next `rng()` draw. -/
def rngNext (s : State) : RngAnswer :=
  match s.rngAnswers with
  | a :: _ => a
  | [] => Config.rngAnswer s.rngCount

/-- The state after one draw: the answer is used up. -/
def rngDrawn (s : State) : State :=
  { s with rngAnswers := s.rngAnswers.drop 1, rngCount := s.rngCount + 1 }

/-! ## Start and completion of a command -/

/-- The start of a command: an accepted write of v to CMD, one indivisible step (30_encoding.md R84). -/
def startCommand (v : Word) (s : State) : State :=
  { s with cmd := v, seq := .busy, done := false, err := .ok, outLen := 0 }

/-- `finish(out)`: successful completion (60_exceptions.md R225). -/
def finish (out : List Byte) (s : State) : State :=
  { s with
    outBuf := Memory.ofOutput out
    outLen := BitVec.ofNat 32 out.length
    err := .ok
    seq := .idle
    done := true }

/-- `raise E`: error completion, AENV's one way to report an exception (60_exceptions.md R226; 00_scope.md R16). It saves no
state and vectors nowhere (R236). -/
def raiseError (e : ErrCode) (s : State) : State :=
  { s with
    outBuf := Memory.ofOutput []
    outLen := 0
    err := e
    seq := .idle
    done := true }

/-- A host write of v to STATUS (10_state.md R30). Writing 1 to DONE acknowledges a completion, the nearest thing AENV has to a
return from an exception (60_exceptions.md R236). -/
def writeStatus (v : Word) (s : State) : State :=
  { s with
    done := s.done && !v.getLsbD 1
    werr := s.werr && !v.getLsbD 2 }

/-- A command's answer on success. -/
def succeed (out : List Byte) (s : State) : Result := .next (finish out s)

/-- A command's answer on an error. -/
def fail (e : ErrCode) (s : State) : Result := .next (raiseError e s)

/-! ## Reset -/

/-- The reset input is asserted: every architectural item takes its reset value, whatever the sequencer was doing (70_reset_and_hazards.md
R260), so a running command is abandoned (R262). BUF_SIZE and what belongs to the surroundings stay (log 7, 15). It takes effect at once, as one event (log 24). -/
def resetLine (s : State) : State :=
  { State.reset with
    bufSize := s.bufSize
    freeCount := s.freeCount
    rngAnswers := s.rngAnswers
    rngCount := s.rngCount
    inputs := s.inputs
    response := s.response }

end Sys2Proof.Machine
end

