-- ==== Sys2Proof/Machine/Flags.lean ====
section
/-! DEFINITION. The status and control words and every field of them (10_state.md R23, R24, R29, R45, R50), the error codes
(60_exceptions.md R220) and the interrupt output (R235). -/

namespace Sys2Proof.Machine

/-- The code of each error in STATUS.ERR (R220). -/
def errNumber : ErrCode → BitVec 4
  | .ok => 0
  | .malformedEnvelope => 1
  | .integrityFailure => 2
  | .invalidPadding => 3
  | .randomSourceFailure => 4
  | .illegalCommand => 5
  | .lengthError => 6
  | .keyNotLoaded => 7

/-- STATUS.BUSY (R50). -/
def busy (s : State) : Bool := s.seq == .busy

/-- STATUS.CK_LOADED: all four words of CK were written since reset (R45). -/
def ckLoaded (s : State) : Bool := s.ckWritten == 0xF

/-- STATUS.IK_LOADED: all eight words of IK were written since reset (R45). -/
def ikLoaded (s : State) : Bool := s.ikWritten == 0xFF

/-- A one-bit field. -/
def bit (b : Bool) : BitVec 1 := BitVec.ofBool b

/-- The STATUS word (R29): [9] IK_LOADED, [8] CK_LOADED, [7:4] ERR, [3] reserved, [2] WERR, [1] DONE, [0] BUSY. -/
def statusWord (s : State) : Word :=
  0#22 ++ bit (ikLoaded s) ++ bit (ckLoaded s) ++ errNumber s.err ++ 0#1 ++ bit s.werr ++ bit s.done ++ bit (busy s)

/-- The CTRL word (R24): [2] KEY_LOCK, [1] STRICT_PAD, [0] IRQ_EN, reserved bits 0. -/
def ctrlWord (s : State) : Word := 0#29 ++ bit s.keyLock ++ bit s.strictPad ++ bit s.irqEn

/-- The PARAM word (R23): BUF_SIZE in [15:0], reserved bits 0. -/
def paramWord (s : State) : Word := 0#16 ++ BitVec.ofNat 16 s.bufSize

/-- The ID word (R22), the bytes "AEN1" most significant first. -/
def idWord : Word := 0x41454E31

/-- The interrupt output (60_exceptions.md R235). -/
def irq (s : State) : Bool := s.irqEn && s.done

end Sys2Proof.Machine
end

