-- ==== Sys2Proof/Machine/Padding.lean ====
section
/-! DEFINITION. PKCS#7 padding and depadding (42_pkcs7.md R170 to R173). -/

namespace Sys2Proof.Machine

/-- The pad length `p = 16 − (ℓ mod 16)` (R170). -/
def padLength (l : Nat) : Nat := 16 - l % 16

/-- `PAD(m)` (R170). -/
def pad (m : List Byte) : List Byte :=
  m ++ List.replicate (padLength m.length) (BitVec.ofNat 8 (padLength m.length))

/-- The last byte of a sequence, `d[n−1]` (R171). -/
def lastByte (d : List Byte) : Byte := byteAt d (d.length - 1)

/-- `UNPAD_LAX(d)`; `none` is InvalidPadding (R171). -/
def unpadLax (d : List Byte) : Option (List Byte) :=
  if (lastByte d).toNat = 0 ∨ 16 < (lastByte d).toNat then none
  else some (d.take (d.length - (lastByte d).toNat))

/-- `UNPAD_STRICT(d)`; `none` is InvalidPadding (R172). -/
def unpadStrict (d : List Byte) : Option (List Byte) :=
  if (lastByte d).toNat = 0 ∨ 16 < (lastByte d).toNat then none
  else if (d.drop (d.length - (lastByte d).toNat)).any (fun b => b != lastByte d) then none
  else some (d.take (d.length - (lastByte d).toNat))

/-- `UNPAD(d)` under STRICT_PAD (R173). -/
def unpad (strict : Bool) (d : List Byte) : Option (List Byte) :=
  if strict then unpadStrict d else unpadLax d

end Sys2Proof.Machine
end

