-- ==== Sys2Proof/Machine/ShaHash.lean ====
section
/-! DEFINITION. SHA-256 and HMAC-SHA-256, and the tag comparison (41_sha256_hmac.md R140 to R152). -/

namespace Sys2Proof.Machine

/-- `ROTR(x, n)` (00_scope.md R14). -/
def rotr (x : Word) (n : Nat) : Word := x.rotateRight n

/-- `Ch` (R143). -/
def shaCh (x y z : Word) : Word := (x &&& y) ^^^ (~~~x &&& z)

/-- `Maj` (R143). -/
def shaMaj (x y z : Word) : Word := (x &&& y) ^^^ (x &&& z) ^^^ (y &&& z)

/-- `Σ0` (R143). -/
def bigSigma0 (x : Word) : Word := rotr x 2 ^^^ rotr x 13 ^^^ rotr x 22

/-- `Σ1` (R143). -/
def bigSigma1 (x : Word) : Word := rotr x 6 ^^^ rotr x 11 ^^^ rotr x 25

/-- `σ0` (R143). -/
def smallSigma0 (x : Word) : Word := rotr x 7 ^^^ rotr x 18 ^^^ (x >>> 3)

/-- `σ1` (R143). -/
def smallSigma1 (x : Word) : Word := rotr x 17 ^^^ rotr x 19 ^^^ (x >>> 10)

/-- The round constants `K_0 .. K_63` (R144), eight per line as there. -/
def shaK : List Word :=
  [0x428a2f98, 0x71374491, 0xb5c0fbcf, 0xe9b5dba5, 0x3956c25b, 0x59f111f1, 0x923f82a4, 0xab1c5ed5] ++
  [0xd807aa98, 0x12835b01, 0x243185be, 0x550c7dc3, 0x72be5d74, 0x80deb1fe, 0x9bdc06a7, 0xc19bf174] ++
  [0xe49b69c1, 0xefbe4786, 0x0fc19dc6, 0x240ca1cc, 0x2de92c6f, 0x4a7484aa, 0x5cb0a9dc, 0x76f988da] ++
  [0x983e5152, 0xa831c66d, 0xb00327c8, 0xbf597fc7, 0xc6e00bf3, 0xd5a79147, 0x06ca6351, 0x14292967] ++
  [0x27b70a85, 0x2e1b2138, 0x4d2c6dfc, 0x53380d13, 0x650a7354, 0x766a0abb, 0x81c2c92e, 0x92722c85] ++
  [0xa2bfe8a1, 0xa81a664b, 0xc24b8b70, 0xc76c51a3, 0xd192e819, 0xd6990624, 0xf40e3585, 0x106aa070] ++
  [0x19a4c116, 0x1e376c08, 0x2748774c, 0x34b0bcb5, 0x391c0cb3, 0x4ed8aa4a, 0x5b9cca4f, 0x682e6ff3] ++
  [0x748f82ee, 0x78a5636f, 0x84c87814, 0x8cc70208, 0x90befffa, 0xa4506ceb, 0xbef9a3f7, 0xc67178f2]

/-- The eight words of a chaining value, or the eight working variables of the compression (R146). -/
structure HashState where
  a : Word
  b : Word
  c : Word
  d : Word
  e : Word
  f : Word
  g : Word
  h : Word
deriving DecidableEq, Repr

/-- The initial hash value `H^(0)` (R145). -/
def shaInit : HashState :=
  ⟨0x6a09e667, 0xbb67ae85, 0x3c6ef372, 0xa54ff53a, 0x510e527f, 0x9b05688c, 0x1f83d9ab, 0x5be0cd19⟩

/-- Padding: `M ∥ 0x80 ∥ 0x00^k ∥ BE64(8ℓ)` with `k = (55 − ℓ) mod 64` (R141). -/
def shaPad (m : List Byte) : List Byte :=
  m ++ [0x80] ++ List.replicate ((55 + 64 - m.length % 64) % 64) 0 ++ be64Bytes (BitVec.ofNat 64 (8 * m.length))

/-- The word `BE32` of a four-byte piece (R142). -/
def beWordOf (b : List Byte) : Word := be32 (byteAt b 0) (byteAt b 1) (byteAt b 2) (byteAt b 3)

/-- The sixteen words `W_0 .. W_15` of a 64-byte block (R142). -/
def blockWords (b : List Byte) : List Word := (chunks 4 16 b).map beWordOf

/-- The message schedule with n words more, latest first: the head is `W_{t-1}`, so `W_{t-2}` stands at 1, `W_{t-7}` at 6,
`W_{t-15}` at 14 and `W_{t-16}` at 15 (R146). -/
def extendSchedule : Nat → List Word → List Word
  | 0, w => w
  | n + 1, w =>
    extendSchedule n
      ((smallSigma1 (w.getD 1 0) + w.getD 6 0 + smallSigma0 (w.getD 14 0) + w.getD 15 0) :: w)

/-- The words `W_0 .. W_63` of a block (R146). -/
def schedule (b : List Byte) : List Word := (extendSchedule 48 (blockWords b).reverse).reverse

/-- `T1` (R146), with kw the pair `K_t`, `W_t`. -/
def shaT1 (v : HashState) (kw : Word × Word) : Word := v.h + bigSigma1 v.e + shaCh v.e v.f v.g + kw.1 + kw.2

/-- `T2` (R146). -/
def shaT2 (v : HashState) : Word := bigSigma0 v.a + shaMaj v.a v.b v.c

/-- One round of the compression (R146). -/
def shaRound (v : HashState) (kw : Word × Word) : HashState :=
  ⟨shaT1 v kw + shaT2 v, v.a, v.b, v.c, v.d + shaT1 v kw, v.e, v.f, v.g⟩

/-- Word by word sum of two chaining values. -/
def HashState.add (x y : HashState) : HashState :=
  ⟨x.a + y.a, x.b + y.b, x.c + y.c, x.d + y.d, x.e + y.e, x.f + y.f, x.g + y.g, x.h + y.h⟩

/-- Compression of one block into the chaining value (R146). -/
def compress (h : HashState) (b : List Byte) : HashState :=
  h.add ((shaK.zip (schedule b)).foldl shaRound h)

/-- The digest of a chaining value (R147). -/
def HashState.digest (v : HashState) : List Byte :=
  beBytes v.a ++ beBytes v.b ++ beBytes v.c ++ beBytes v.d ++ beBytes v.e ++ beBytes v.f ++ beBytes v.g ++ beBytes v.h

/-- `SHA256(M)` (R140 to R147). -/
def sha256 (m : List Byte) : List Byte :=
  ((chunks 64 ((shaPad m).length / 64) (shaPad m)).foldl compress shaInit).digest

/-- `K0 ⊕ x^64` where `K0 = IK ∥ 0x00^32` (R150). -/
def hmacKey (x : Byte) (ik : List Byte) : List Byte := (ik ++ List.replicate 32 0).map (· ^^^ x)

/-- `HMAC(IK, m)` for the 32-byte integrity key (R150). -/
def hmac (ik m : List Byte) : List Byte :=
  sha256 (hmacKey 0x5C ik ++ sha256 (hmacKey 0x36 ik ++ m))

/-- The OR of all the bytewise differences of two sequences, in index order (R152). -/
def ctDiff (a b : List Byte) : Byte := (List.zipWith (· ^^^ ·) a b).foldl (· ||| ·) 0

/-- `CT_EQ(a, b)` (R152). -/
def ctEq (a b : List Byte) : Bool := ctDiff a b == 0

end Sys2Proof.Machine
end

