-- ==== Sys2Proof/Machine/Operands.lean ====
section
/-! DEFINITION. The implicit operands of the commands (30_encoding.md R83): LEN, InBuf[0:LEN], CK, IK, IVR, STRICT_PAD, the length limits
(40_aes.md R113; 43_envelope.md R193, R198; 60_exceptions.md R223) and the key checks (R222). -/

namespace Sys2Proof.Machine

/-- The operand L: LEN as an unsigned byte count (10_state.md R31). -/
def lenOperand (s : State) : Nat := s.len.toNat

/-- The operand `InBuf[0 : n]`, each byte read once, unspecified ones as free values (R40, 70_reset_and_hazards.md R261, log 4). -/
def inputBytes (s : State) (n : Nat) : List Byte := (s.inBuf.readBytes 0 n s.freeCount).1

/-- The state after reading `InBuf[0 : n]`: only the count of free values read moves. -/
def afterInput (s : State) (n : Nat) : State := { s with freeCount := (s.inBuf.readBytes 0 n s.freeCount).2 }

/-- The four bytes of a register word as a column: byte j is bits [8j+7 : 8j] (R33, R37). -/
def colOfWord (w : Word) : Col := ⟨wordByte w 0, wordByte w 1, wordByte w 2, wordByte w 3⟩

/-- The block held in four registers: `CKEYi = LE32(CK[4i : 4i+4])`, and so for IVi (R33, R37). -/
def blockOfWords (w : Vector Word 4) : Block :=
  ⟨colOfWord w[0], colOfWord w[1], colOfWord w[2], colOfWord w[3]⟩

/-- The cipher key CK (10_state.md R33). -/
def ckOperand (s : State) : Block := blockOfWords s.ckey

/-- The chaining input IVR (10_state.md R37). -/
def ivOperand (s : State) : Block := blockOfWords s.iv

/-- The integrity key IK, 32 bytes (10_state.md R34). -/
def ikOperand (s : State) : List Byte := s.ikey.toList.flatMap leBytes

/-- The IV of a successful draw: byte i is `rng_data[8i+7 : 8i]` (60_exceptions.md R240). -/
def blockOfDraw (d : BitVec 128) : Block :=
  ⟨colOfWord (d.extractLsb' 0 32), colOfWord (d.extractLsb' 32 32), colOfWord (d.extractLsb' 64 32),
    colOfWord (d.extractLsb' 96 32)⟩

/-- `blocklen(L)` (40_aes.md R113). -/
def blocklen (s : State) (l : Nat) : Bool := decide (16 ≤ l ∧ l % 16 = 0 ∧ l ≤ s.bufSize)

/-- `envlen(L)` (43_envelope.md R193). -/
def envlen (l : Nat) : Bool := decide (64 ≤ l ∧ l % 16 = 0)

/-- ENC_MAX, the largest L that ENCODE accepts: BUF_SIZE − 49 (43_envelope.md R198). -/
def encMax (s : State) : Nat := s.bufSize - 49

/-- Both keys are loaded, as ENCODE and DECODE need (60_exceptions.md R222). -/
def keysLoaded (s : State) : Bool := ckLoaded s && ikLoaded s

end Sys2Proof.Machine
end

