-- ==== Sys2Proof/Machine/Aes.lean ====
section
/-! DEFINITION. The raw AES commands (40_aes.md R120 to R123). -/

namespace Sys2Proof.Machine

/-- The shape the four raw AES commands share: the length check, the key check, then the mode over the input's blocks
(R120 to R123, order of checks 60_exceptions.md R230). -/
def rawCipher (mode : List Block → List Block) (s : State) : Result :=
  if !blocklen s (lenOperand s) then fail .lengthError s
  else if !ckLoaded s then fail .keyNotLoaded s
  else
    succeed (blocksBytes (mode (blocksOf (inputBytes s (lenOperand s))))) (afterInput s (lenOperand s))

/-- AES_ECB_ENC (R120). -/
def execAesEcbEnc (s : State) : Result := rawCipher (ecbE (ckOperand s)) s

/-- AES_ECB_DEC (R121). -/
def execAesEcbDec (s : State) : Result := rawCipher (ecbD (ckOperand s)) s

/-- AES_CBC_ENC (R122). -/
def execAesCbcEnc (s : State) : Result := rawCipher (cbcE (ckOperand s) (ivOperand s)) s

/-- AES_CBC_DEC (R123). -/
def execAesCbcDec (s : State) : Result := rawCipher (cbcD (ckOperand s) (ivOperand s)) s

end Sys2Proof.Machine
end

