-- ==== Sys2Proof/Machine/Envelope.lean ====
section
/-! DEFINITION. The envelope framer: ENCODE and DECODE (43_envelope.md R190 to R200), and the completion of an illegal command
(60_exceptions.md R221). -/

namespace Sys2Proof.Machine

/-- The ciphertext of an envelope: `CBC_E(CK, iv, PAD(m))` (R191 steps 2 and 3). -/
def envCiphertext (ck iv : Block) (m : List Byte) : List Byte :=
  blocksBytes (cbcE ck iv (blocksOf (pad m)))

/-- The envelope `iv ∥ C ∥ HMAC(IK, iv ∥ C)` of a plaintext (R190, R191 steps 2 to 5; 41_sha256_hmac.md R151). -/
def envelope (ck : Block) (ik : List Byte) (iv : Block) (m : List Byte) : List Byte :=
  iv.bytes ++ envCiphertext ck iv m ++ hmac ik (iv.bytes ++ envCiphertext ck iv m)

/-- ENCODE (R191). The draw is taken only after both checks, and it is the only one. -/
def execEncode (s : State) : Result :=
  if encMax s < lenOperand s then fail .lengthError s
  else if !keysLoaded s then fail .keyNotLoaded s
  else
    match rngNext s with
    | .fail => fail .randomSourceFailure (rngDrawn s)
    | .ok d =>
      succeed (envelope (ckOperand s) (ikOperand s) (blockOfDraw d) (inputBytes s (lenOperand s)))
        (afterInput (rngDrawn s) (lenOperand s))

/-- The signed region `E[0 : L−32]` of an envelope (R192 step 2). -/
def signedRegion (e : List Byte) : List Byte := e.take (e.length - 32)

/-- The tag `E[L−32 : L]` of an envelope (R192 step 2). -/
def envelopeTag (e : List Byte) : List Byte := e.drop (e.length - 32)

/-- The padded plaintext of an envelope: `CBC_D(CK, S[0:16], S[16:])` (R192 steps 2 and 4). -/
def envPadded (ck : Block) (e : List Byte) : List Byte :=
  blocksBytes (cbcD ck (blockOf ((signedRegion e).take 16)) (blocksOf ((signedRegion e).drop 16)))

/-- Steps 3 to 6 of DECODE on the envelope's bytes: the tag is compared first, and only where it agrees is anything decrypted
(R192, R194). -/
def openEnvelope (ck : Block) (ik : List Byte) (strict : Bool) (e : List Byte) : Except ErrCode (List Byte) :=
  if !ctEq (hmac ik (signedRegion e)) (envelopeTag e) then .error .integrityFailure
  else
    match unpad strict (envPadded ck e) with
    | none => .error .invalidPadding
    | some r => .ok r

/-- DECODE (R192). -/
def execDecode (s : State) : Result :=
  if !envlen (lenOperand s) then fail .malformedEnvelope s
  else if s.bufSize < lenOperand s then fail .lengthError s
  else if !keysLoaded s then fail .keyNotLoaded s
  else
    match openEnvelope (ckOperand s) (ikOperand s) s.strictPad (inputBytes s (lenOperand s)) with
    | .error e => fail e (afterInput s (lenOperand s))
    | .ok r => succeed r (afterInput s (lenOperand s))

/-- The completion of a CMD value that decodes to Illegal: no input is read, no key checked, no draw taken (R221). -/
def execIllegal (s : State) : Result := fail .illegalCommand s

end Sys2Proof.Machine
end

