-- ==== Sys2Proof/Machine/Hmac.lean ====
section
/-! DEFINITION. The HMAC command (41_sha256_hmac.md R155). -/

namespace Sys2Proof.Machine

/-- HMAC_SHA256 (R155). -/
def execHmacSha256 (s : State) : Result :=
  if s.bufSize < lenOperand s then fail .lengthError s
  else if !ikLoaded s then fail .keyNotLoaded s
  else succeed (hmac (ikOperand s) (inputBytes s (lenOperand s))) (afterInput s (lenOperand s))

end Sys2Proof.Machine
end

