-- ==== Sys2Proof/Machine/Pkcs7.lean ====
section
/-! DEFINITION. The PKCS#7 commands (42_pkcs7.md R175, R176). -/

namespace Sys2Proof.Machine

/-- PKCS7_PAD (R175). -/
def execPkcs7Pad (s : State) : Result :=
  if s.bufSize - 1 < lenOperand s then fail .lengthError s
  else succeed (pad (inputBytes s (lenOperand s))) (afterInput s (lenOperand s))

/-- PKCS7_UNPAD (R176). -/
def execPkcs7Unpad (s : State) : Result :=
  if !blocklen s (lenOperand s) then fail .lengthError s
  else
    match unpad s.strictPad (inputBytes s (lenOperand s)) with
    | none => fail .invalidPadding (afterInput s (lenOperand s))
    | some r => succeed r (afterInput s (lenOperand s))

end Sys2Proof.Machine
end

