-- ==== Sys2Proof/Machine/Dispatch.lean ====
section
/-! DEFINITION. The meaning of each command: its completion step (60_exceptions.md R224), one arm per constructor. -/

namespace Sys2Proof.Machine

def exec (i : Instr) (s : State) : Host.Outcome State Fault Refusal :=
  match i with
  | .envEncode => Sys2Proof.Machine.execEncode s
  | .envDecode => Sys2Proof.Machine.execDecode s
  | .aesEcbEnc => Sys2Proof.Machine.execAesEcbEnc s
  | .aesEcbDec => Sys2Proof.Machine.execAesEcbDec s
  | .aesCbcEnc => Sys2Proof.Machine.execAesCbcEnc s
  | .aesCbcDec => Sys2Proof.Machine.execAesCbcDec s
  | .hmacSha256 => Sys2Proof.Machine.execHmacSha256 s
  | .pkcs7Pad => Sys2Proof.Machine.execPkcs7Pad s
  | .pkcs7Unpad => Sys2Proof.Machine.execPkcs7Unpad s

end Sys2Proof.Machine
end

