-- ==== Sys2Proof/Machine/Port.lean ====
section
/-! DEFINITION. The host bus port: the address map, reads and writes of every location (10_state.md R21 to R41; 20_memory.md R60 to
R67). -/

namespace Sys2Proof.Machine

/-- The register map: offset and register (10_state.md R21). -/
def registerTable : List (Nat × Location) :=
  [(0x000, .id), (0x004, .param), (0x008, .ctrl), (0x00C, .cmd), (0x010, .status), (0x014, .len), (0x018, .outLen)] ++
  [(0x020, .ckey 0), (0x024, .ckey 1), (0x028, .ckey 2), (0x02C, .ckey 3)] ++
  [(0x040, .ikey 0), (0x044, .ikey 1), (0x048, .ikey 2), (0x04C, .ikey 3),
   (0x050, .ikey 4), (0x054, .ikey 5), (0x058, .ikey 6), (0x05C, .ikey 7)] ++
  [(0x060, .iv 0), (0x064, .iv 1), (0x068, .iv 2), (0x06C, .iv 3)]

/-- The register at offset n of the register region, if one is mapped there (R21). -/
def registerAt (n : Nat) : Option Location :=
  (registerTable.find? (fun row => row.1 == n)).map Prod.snd

/-- The location offset n names, if it is aligned and mapped (20_memory.md R61, R63). -/
def locateAt (bufSize n : Nat) : Option Location :=
  if n % 4 ≠ 0 then none
  else if n < 0x1000 then registerAt n
  else if n < 0x1000 + bufSize then some (.inWord ((n - 0x1000) / 4))
  else if n < 0x2000 then none
  else if n < 0x2000 + bufSize then some (.outWord ((n - 0x2000) / 4))
  else none

/-- The location an offset of the aperture names. -/
def locate (bufSize : Nat) (addr : Offset) : Option Location := locateAt bufSize addr.toNat

/-- The value a read of a location returns, and the state after it: only free values are used up (20_memory.md R65, R67, R71). -/
def readLocation (l : Location) (s : State) : Word × State :=
  match l with
  | .id => (idWord, s)
  | .param => (paramWord s, s)
  | .ctrl => (ctrlWord s, s)
  | .cmd => (s.cmd, s)
  | .status => (statusWord s, s)
  | .len => (s.len, s)
  | .outLen => (s.outLen, s)
  | .ckey _ => (0, s)
  | .ikey _ => (0, s)
  | .iv i => (s.iv[i], s)
  | .inWord k => readBufWord s.inBuf k s
  | .outWord k => if busy s then freeWord s else readBufWord s.outBuf k s

/-- The busy write barrier: in `busy` the write is dropped and sets WERR (20_memory.md R66); in `idle` it has its effect. -/
def unlessBusy (effect : State → State) (s : State) : State :=
  if busy s then { s with werr := true } else effect s

/-- The key lock: under KEY_LOCK a key write is dropped and sets WERR (10_state.md R27). -/
def unlessLocked (effect : State → State) (s : State) : State :=
  if s.keyLock then { s with werr := true } else effect s

/-- A write of v to CTRL in `idle` (10_state.md R25). -/
def writeCtrl (v : Word) (s : State) : State :=
  { s with
    irqEn := v.getLsbD 0
    strictPad := v.getLsbD 1
    keyLock := s.keyLock || v.getLsbD 2 }

/-- A write of v to CKEYi, in `idle` and unlocked (10_state.md R36). -/
def writeCkey (i : Fin 4) (v : Word) (s : State) : State :=
  { s with ckey := s.ckey.set i v, ckWritten := s.ckWritten ||| (1#4 <<< i.val) }

/-- A write of v to IKEYi, in `idle` and unlocked (10_state.md R36). -/
def writeIkey (i : Fin 8) (v : Word) (s : State) : State :=
  { s with ikey := s.ikey.set i v, ikWritten := s.ikWritten ||| (1#8 <<< i.val) }

/-- A write of v to IVi, in `idle` (10_state.md R37). -/
def writeIv (i : Fin 4) (v : Word) (s : State) : State := { s with iv := s.iv.set i v }

/-- The state after a write of v to a location (10_state.md R22 to R41; 20_memory.md R64, R66). -/
def writeLocation (l : Location) (v : Word) (s : State) : State :=
  match l with
  | .id => s
  | .param => s
  | .ctrl => unlessBusy (writeCtrl v) s
  | .cmd => unlessBusy (startCommand v) s
  | .status => writeStatus v s
  | .len => unlessBusy (fun t => { t with len := v }) s
  | .outLen => s
  | .ckey i => unlessBusy (unlessLocked (writeCkey i v)) s
  | .ikey i => unlessBusy (unlessLocked (writeIkey i v)) s
  | .iv i => unlessBusy (writeIv i v) s
  | .inWord k => unlessBusy (fun t => { t with inBuf := t.inBuf.setWord k v }) s
  | .outWord _ => s

/-- The location of an access that is answered `ok`: 32 bits wide, aligned, mapped (20_memory.md R62, R63). -/
def target (bufSize : Nat) (addr : Offset) (bits : Nat) : Option Location :=
  if bits = 32 then locate bufSize addr else none

/-- One host access: its effect and the port's answer (20_memory.md R60). A `buserr` changes no AENV state. -/
def hostAccess (a : BusAccess) (s : State) : State :=
  match a with
  | .read addr bits =>
    match target s.bufSize addr bits with
    | none => { s with response := some .buserr }
    | some l => { (readLocation l s).2 with response := some (.okData (readLocation l s).1) }
  | .write addr bits v =>
    match target s.bufSize addr bits with
    | none => { s with response := some .buserr }
    | some l => { writeLocation l v s with response := some .ok }

end Sys2Proof.Machine
end

