-- ==== Sys2Proof/Machine/HostProgram.lean ====
section
/-! DEFINITION. The host-program notation (30_encoding.md R86, R87): each form as the list of port events it stands for. -/

namespace Sys2Proof.Machine

/-- `WR off, v` (R86). -/
def hostWR (off : Offset) (v : Word) : Input := .access (.write off 32 v)

/-- `RD off` (R86). -/
def hostRD (off : Offset) : Input := .access (.read off 32)

/-- `WR base + 4i, LE32(b[4i : 4i+4])` for the n pieces i = 0 .. n-1 of b, in increasing i. -/
def writeWords (base : Nat) : Nat → List Byte → List Input
  | 0, _ => []
  | n + 1, b => hostWR (BitVec.ofNat 14 base) (wordOf b) :: writeWords (base + 4) n (b.drop 4)

/-- `SETCK b[0..15]` (R87). -/
def hostSETCK (b : List Byte) : List Input := writeWords 0x020 4 b

/-- `SETIK b[0..31]` (R87). -/
def hostSETIK (b : List Byte) : List Input := writeWords 0x040 8 b

/-- `SETIV b[0..15]` (R87). -/
def hostSETIV (b : List Byte) : List Input := writeWords 0x060 4 b

/-- `LOAD b` (R87). A byte past the end of b is 0x00, as `byteAt` reads it. -/
def hostLOAD (b : List Byte) : List Input :=
  writeWords 0x1000 ((b.length + 3) / 4) b ++ [hostWR 0x014 (BitVec.ofNat 32 b.length)]

/-- `WAIT` (R87), on a run where it takes n reads of STATUS; how many is unspecified (70_reset_and_hazards.md R275). -/
def hostWAIT (n : Nat) : List Input := List.replicate n (hostRD 0x010)

/-- `RUN c` (R87): the CMD write, the sequencer's completion after `early` reads of STATUS, and one read that shows BUSY = 0. -/
def hostRUN (i : Instr) (early : Nat) : List Input :=
  hostWR 0x00C (encode i) :: (hostWAIT early ++ [Input.sequencer] ++ hostWAIT 1)

/-- The reads of n words from an offset on. -/
def readWords (base : Nat) : Nat → List Input
  | 0 => []
  | n + 1 => hostRD (BitVec.ofNat 14 base) :: readWords (base + 4) n

/-- `FETCH n` (R87): the reads. -/
def hostFETCH (n : Nat) : List Input := readWords 0x2000 ((n + 3) / 4)

/-- The result of `FETCH n` (R87): the first n bytes of the words read, little-endian. -/
def fetchResult (n : Nat) (words : List Word) : List Byte := (words.flatMap leBytes).take n

end Sys2Proof.Machine
end

