-- ==== Sys2Proof/Machine/Step.lean ====
section
/-! DEFINITION. One step of AENV and its surroundings: the next event of the order of 20_memory.md R74 takes place. -/

namespace Sys2Proof.Machine

/-- The sequencer's turn: in `busy` its completion step runs the command CMD decodes to (60_exceptions.md R224); in `idle` it
does nothing (R243). -/
def sequencerStep (s : State) : Result :=
  match s.seq with
  | .idle => .next s
  | .busy =>
    match decode s.cmd with
    | .ok i => exec i s
    | .error _ => execIllegal s

/-- One step: the next event listed, or the sequencer's turn where none is left (70_reset_and_hazards.md R276; log 1, 2, 3). -/
def step (s : State) : Host.Outcome State Fault Refusal :=
  match s.inputs with
  | [] => sequencerStep s
  | .sequencer :: rest => sequencerStep { s with inputs := rest }
  | .access a :: rest => .next (hostAccess a { s with inputs := rest })
  | .reset :: rest => .next (resetLine { s with inputs := rest })

/-- The events still to come with the sequencer's turn first; none need be listed where no other event is. -/
def sequencerFirst : List Input → List Input
  | [] => []
  | i :: rest => .sequencer :: i :: rest

/-- The state with the command word w accepted by CMD (30_encoding.md R84) and the sequencer's turn next, so that the very next
step runs exactly that command (log 10). -/
def State.withFetchWord (s : State) (nbits w : Nat) : State :=
  { startCommand (BitVec.ofNat 32 (w % 2 ^ nbits)) s with inputs := sequencerFirst s.inputs }

end Sys2Proof.Machine
end

