-- ==== Sys2Proof/Safety.lean ====
section
/-! DEFINITION. What counts as a good state and a safe run of AENV, in the terms the statements use. -/

namespace Sys2Proof.Machine

/-- IN_BUF is in canonical form, lies below BUF_SIZE, and an unlisted byte is unspecified (10_state.md R40; 70_reset_and_hazards.md R261). -/
abbrev State.InBufWf (s : State) : Prop :=
  s.inBuf.wf = true ∧ s.inBuf.below s.bufSize = true ∧ s.inBuf.fill = none

/-- OUT_BUF is in canonical form and lies below BUF_SIZE; before the first completion since reset no byte of it is specified, after
one every byte is (10_state.md R41; 60_exceptions.md R225, R226; 70_reset_and_hazards.md R261). -/
abbrev State.OutBufWf (s : State) : Prop :=
  s.outBuf.wf = true ∧ s.outBuf.below s.bufSize = true ∧
    ((s.outBuf.fill = none ∧ s.outBuf.cells = []) ∨ s.outBuf.fill = some 0)

/-- While busy no result of an earlier command shows (30_encoding.md R84; 20_memory.md R67). -/
abbrev State.BusyClear (s : State) : Prop :=
  s.seq = .busy → s.done = false ∧ s.err = .ok ∧ s.outLen = 0

/-- While idle every byte of OUT_BUF from OUT_LEN on is zero or was never written (60_exceptions.md R225). -/
abbrev State.ZeroTail (s : State) : Prop :=
  s.seq = .idle → s.outBuf.below s.outLen.toNat = true

/-- After an error completion no output byte shows (60_exceptions.md R226). -/
abbrev State.NoPartialOutput (s : State) : Prop :=
  s.err ≠ .ok → s.outLen = 0 ∧ s.outBuf = Memory.ofOutput []

/-- A key word not written since reset holds its reset value (10_state.md R36, R45). -/
abbrev State.UnwrittenKeysZero (s : State) : Prop :=
  (∀ i : Fin 4, s.ckWritten.getLsbD i.val = false → s.ckey[i] = 0) ∧
    (∀ i : Fin 8, s.ikWritten.getLsbD i.val = false → s.ikey[i] = 0)

/-- The invariant of AENV. -/
abbrev State.Inv (s : State) : Prop :=
  Config.LegalBufSize s.bufSize ∧ s.InBufWf ∧ s.OutBufWf ∧ s.outLen.toNat ≤ s.bufSize ∧
    s.BusyClear ∧ s.ZeroTail ∧ s.NoPartialOutput ∧ s.UnwrittenKeysZero

/-- A step is safe when it answers a next state and that state keeps the invariant: no fault, no refusal. -/
def SafeResult (r : Result) : Prop := ∃ t, r = .next t ∧ t.Inv

/-- LEN and IN_BUF hold the byte sequence b as a command's input (10_state.md R31, R40). -/
abbrev HoldsInput (s : State) (b : List Byte) : Prop :=
  lenOperand s = b.length ∧ ∀ i, i < b.length → s.inBuf.get i = some (byteAt b i)

/-- The state after a successful completion with the output out: OUT_LEN, every byte of OUT_BUF (zero past the output, as `byteAt`
reads there) and the STATUS fields (60_exceptions.md R225). -/
abbrev CompletedWith (t : State) (out : List Byte) : Prop :=
  t.outLen.toNat = out.length ∧ (∀ i, i < t.bufSize → t.outBuf.get i = some (byteAt out i)) ∧
    t.err = .ok ∧ t.seq = .idle ∧ t.done = true

/-- The state after an error completion: no output byte, and the STATUS fields (60_exceptions.md R226). -/
abbrev CompletedWithError (t : State) (e : ErrCode) : Prop :=
  t.outLen = 0 ∧ (∀ i, i < t.bufSize → t.outBuf.get i = some 0) ∧ t.err = e ∧ t.seq = .idle ∧ t.done = true

/-- The frame of a command's completion (60_exceptions.md R227): every register, key-load bit, mode bit and byte of IN_BUF is
unchanged, as are the events to come and the port's answer. What it leaves out is what R225 and R226 write (OUT_BUF, OUT_LEN,
ERR, BUSY, DONE) and the model's counts of free values and draws. -/
abbrev RestUnchanged (s t : State) : Prop :=
  t.irqEn = s.irqEn ∧ t.strictPad = s.strictPad ∧ t.keyLock = s.keyLock ∧ t.cmd = s.cmd ∧ t.werr = s.werr ∧ t.len = s.len ∧
    t.ckey = s.ckey ∧ t.ikey = s.ikey ∧ t.iv = s.iv ∧ t.ckWritten = s.ckWritten ∧ t.ikWritten = s.ikWritten ∧
    (∀ a, t.inBuf.get a = s.inBuf.get a) ∧ t.inBuf = s.inBuf ∧ t.bufSize = s.bufSize ∧
    t.inputs = s.inputs ∧ t.response = s.response

/-- A run of the host's accesses is over: none is left and no command runs (70_reset_and_hazards.md R276). -/
abbrev RunOver (s : State) : Prop := s.inputs = [] ∧ s.seq = .idle

/-- How many of the bytes 0 .. n-1 of a buffer are unspecified (70_reset_and_hazards.md R261). -/
def unspecifiedBelow (m : Memory) (n : Nat) : Nat := ((List.range n).filter fun i => (m.get i).isNone).length

/-- The inputs of a running command (20_memory.md R66): what must not change while it runs. -/
structure FrozenInputs where
  cmd : Word
  len : Word
  strictPad : Bool
  ckey : Vector Word 4
  ikey : Vector Word 8
  ckWritten : BitVec 4
  ikWritten : BitVec 8
  iv : Vector Word 4
  inBuf : Memory
deriving DecidableEq, Repr

/-- The inputs of a running command, in a state. -/
def frozenInputs (s : State) : FrozenInputs :=
  { cmd := s.cmd, len := s.len, strictPad := s.strictPad, ckey := s.ckey, ikey := s.ikey, ckWritten := s.ckWritten,
    ikWritten := s.ikWritten, iv := s.iv, inBuf := s.inBuf }

end Sys2Proof.Machine
end

