-- ==== Sys2Proof/Certificates/Slice0/Obligations.lean ====
section
/-! DEFINITION. The statements for the provers: what the numbered rules of spec/ say AENV does, one definition each. -/

open Sys2Proof Sys2Proof.Machine

/-! ## Encoding (30_encoding.md R80 to R82) -/

/-- Decoding the word a command is encoded as gives the command back, and of all 2^32 words no other decodes to it (R80, R81, R82). -/
def Obligations.DecodeAndEncodeAgree : Prop :=
  (∀ i : Instr, i.wellFormed = true → decode (encode i) = .ok i) ∧
  (∀ (v : Word) (i : Instr), decode v = .ok i → v = encode i)

/-- The decoder is total: RSV decides first, then whether the code is one of the nine (R82). -/
def Obligations.DecodeSplitsAllWords : Prop :=
  ∀ v : Word,
    (256 ≤ v.toNat → decode v = .error .reservedBits) ∧
    (v.toNat < 256 → v.toNat ∉ [0x01, 0x02, 0x10, 0x11, 0x12, 0x13, 0x20, 0x30, 0x31] → decode v = .error .reservedCode) ∧
    (v.toNat ∈ [0x01, 0x02, 0x10, 0x11, 0x12, 0x13, 0x20, 0x30, 0x31] → ∃ i, decode v = .ok i)

/-- The words of the code table, written out (R81). -/
def Obligations.CodeTableWordsDecode : Prop :=
  decode 0x00000001 = .ok .envEncode ∧ decode 0x00000002 = .ok .envDecode ∧
  decode 0x00000010 = .ok .aesEcbEnc ∧ decode 0x00000011 = .ok .aesEcbDec ∧
  decode 0x00000012 = .ok .aesCbcEnc ∧ decode 0x00000013 = .ok .aesCbcDec ∧
  decode 0x00000020 = .ok .hmacSha256 ∧ decode 0x00000030 = .ok .pkcs7Pad ∧ decode 0x00000031 = .ok .pkcs7Unpad ∧
  decode 0x00000000 = .error .reservedCode ∧ decode 0x00000100 = .error .reservedBits ∧
  decode 0x01000001 = .error .reservedBits

/-! ## The step (60_exceptions.md R224) -/

/-- In `busy` the sequencer's turn runs the command CMD decodes to (R224), on the state with that turn taken off the event list. Three
choices are the model's, not R224's: the order of events is a list (log 1), the completion is taken at once where no event is listed
(log 2), and the running command is the one CMD decodes to (log 11). -/
def Obligations.StepRunsTheDecodedCommand : Prop :=
  ∀ (s : State) (i : Instr), s.seq = .busy → decode s.cmd = .ok i →
    (s.inputs = [] → step s = exec i s) ∧
    (∀ rest, s.inputs = .sequencer :: rest → step s = exec i { s with inputs := rest })

/-- IllegalCommand is raised exactly for the CMD values that decode to Illegal: such a command completes with it, whatever the keys,
reading no input and taking no draw, and no legal command completes with it (R221); it changes nothing but what an error completion
writes (R226, R227). When the completion comes is the model's choice: at the sequencer's turn in the list of events (log 1), and at
once where no event is listed (log 2). That CMD holds the running command is read from R84 and R66 (log 11). -/
def Obligations.IllegalCommandExactly : Prop :=
  (∀ (s : State) (why : IllegalCmd), s.seq = .busy → decode s.cmd = .error why →
    (∃ t, sequencerStep s = .next t ∧ CompletedWithError t .illegalCommand ∧ RestUnchanged s t ∧
      t.freeCount = s.freeCount ∧ t.rngAnswers = s.rngAnswers ∧ t.rngCount = s.rngCount) ∧
    (s.inputs = [] → step s = sequencerStep s) ∧
    (∀ rest, s.inputs = .sequencer :: rest → step s = sequencerStep { s with inputs := rest })) ∧
  (∀ (i : Instr) (s t : State), exec i s = .next t → t.err ≠ .illegalCommand)

/-- No step ends in a fault or a refusal, from any state whatever. -/
def Obligations.StepAlwaysAnswersNext : Prop := ∀ s : State, ∃ t, step s = .next t

/-- Every step keeps the invariant. -/
def Obligations.StepKeepsTheInvariant : Prop := ∀ s t : State, s.Inv → step s = .next t → t.Inv

/-- The state after reset has the invariant. -/
def Obligations.ResetHasTheInvariant : Prop := State.reset.Inv

/-- A CMD write in `idle` starts the command it names, whatever the value; in `busy` it is dropped and the running command goes on
(R84). -/
def Obligations.CmdWriteStartsOrIsDropped : Prop :=
  ∀ (s : State) (v : Word) (rest : List Input), s.inputs = .access (.write 0x00C 32 v) :: rest →
    (s.seq = .idle → step s = .next
      { s with cmd := v, seq := .busy, done := false, err := .ok, outLen := 0, inputs := rest, response := some .ok }) ∧
    (s.seq = .busy → step s = .next { s with werr := true, inputs := rest, response := some .ok })

/-- A run ends: when the events listed are used up and one more step is taken, no command is left running, and from then on nothing
moves (R243, R276). That an unfinished command completes once no event is left is the model's reading of weak fairness (log 2). -/
def Obligations.RunEndsIdle : Prop :=
  ∀ s : State, (∃ t, Sys2Proof.core.run (s.inputs.length + 1) s = .next t ∧ RunOver t) ∧ (RunOver s → step s = .next s)

/-! ## Completion (60_exceptions.md R225 to R227) -/

/-- `finish(out)`: OUT_BUF, OUT_LEN and STATUS as R225 writes them, everything else unchanged. -/
def Obligations.SuccessCompletionWritesOutput : Prop :=
  ∀ (out : List Byte) (s : State), Config.LegalBufSize s.bufSize → out.length ≤ s.bufSize →
    (∀ i, i < out.length → (finish out s).outBuf.get i = out[i]?) ∧
    (∀ i, out.length ≤ i → i < s.bufSize → (finish out s).outBuf.get i = some 0) ∧
    (finish out s).outLen.toNat = out.length ∧ (finish out s).err = .ok ∧
    (finish out s).seq = .idle ∧ (finish out s).done = true ∧ RestUnchanged s (finish out s)

/-- `raise E`: OUT_BUF, OUT_LEN and STATUS as R226 writes them, everything else unchanged. -/
def Obligations.ErrorCompletionZeroesOutput : Prop :=
  ∀ (e : ErrCode) (s : State),
    (∀ i, i < s.bufSize → (raiseError e s).outBuf.get i = some 0) ∧
    (raiseError e s).outLen = 0 ∧ (raiseError e s).err = e ∧
    (raiseError e s).seq = .idle ∧ (raiseError e s).done = true ∧ RestUnchanged s (raiseError e s)

/-- The frame of all nine commands, and the two ways they end: whatever the state, a command completes, leaves the sequencer idle with
DONE set, changes nothing but what R225 or R226 writes, and where it ends in an error no output byte shows. -/
def Obligations.EveryCommandCompletesWithinItsFrame : Prop :=
  ∀ (i : Instr) (s : State), ∃ t, exec i s = .next t ∧ RestUnchanged s t ∧ t.seq = .idle ∧ t.done = true ∧
    (t.err ≠ .ok → CompletedWithError t t.err) ∧
    (Config.LegalBufSize s.bufSize → t.outLen.toNat ≤ s.bufSize)

/-! ## What a command reads (30_encoding.md R83; 10_state.md R40; 70_reset_and_hazards.md R261) -/

/-- The input of a command: each byte is IN_BUF's where one was written, and a free value of its own where none was. That such a byte
is `Config.freeByte` at a counter is the model's form of the value R261 leaves open (log 4). -/
def Obligations.InputBytesAreInBufOrFree : Prop :=
  ∀ (s : State) (n : Nat),
    (inputBytes s n).length = n ∧ (afterInput s n).freeCount = s.freeCount + unspecifiedBelow s.inBuf n ∧
    ∀ i, i < n →
      byteAt (inputBytes s n) i =
        match s.inBuf.get i with
        | some b => b
        | none => Config.freeByte (s.freeCount + unspecifiedBelow s.inBuf i)

/-- A command's outcome does not depend on what R83 does not list for it: the ECB commands ignore IK, IVR and STRICT_PAD, the CBC
commands IK and STRICT_PAD, HMAC_SHA256 ignores CK, IVR and STRICT_PAD, PKCS7_PAD ignores keys, IVR and STRICT_PAD, PKCS7_UNPAD
keys and IVR, ENCODE ignores IVR and STRICT_PAD, DECODE IVR. The load bits of an ignored key are ignored with it. And no command reads
IRQ_EN, KEY_LOCK, the sticky STATUS fields DONE, WERR and ERR of before, OUT_LEN or OUT_BUF: its own completion writes the last five
but WERR, which it leaves, as it does IRQ_EN and KEY_LOCK (R196). -/
def Obligations.CommandsIgnoreOtherOperands : Prop :=
  ∀ (s t : State) (ck : Vector Word 4) (ik : Vector Word 8) (iv : Vector Word 4) (ckw : BitVec 4) (ikw : BitVec 8) (b : Bool),
    (∀ i ∈ [Instr.aesEcbEnc, .aesEcbDec], exec i s = .next t →
      exec i { s with ikey := ik, ikWritten := ikw, iv := iv, strictPad := b } =
        .next { t with ikey := ik, ikWritten := ikw, iv := iv, strictPad := b }) ∧
    (∀ i ∈ [Instr.aesCbcEnc, .aesCbcDec], exec i s = .next t →
      exec i { s with ikey := ik, ikWritten := ikw, strictPad := b } =
        .next { t with ikey := ik, ikWritten := ikw, strictPad := b }) ∧
    (exec .hmacSha256 s = .next t →
      exec .hmacSha256 { s with ckey := ck, ckWritten := ckw, iv := iv, strictPad := b } =
        .next { t with ckey := ck, ckWritten := ckw, iv := iv, strictPad := b }) ∧
    (exec .pkcs7Pad s = .next t →
      exec .pkcs7Pad { s with ckey := ck, ckWritten := ckw, ikey := ik, ikWritten := ikw, iv := iv, strictPad := b } =
        .next { t with ckey := ck, ckWritten := ckw, ikey := ik, ikWritten := ikw, iv := iv, strictPad := b }) ∧
    (exec .pkcs7Unpad s = .next t →
      exec .pkcs7Unpad { s with ckey := ck, ckWritten := ckw, ikey := ik, ikWritten := ikw, iv := iv } =
        .next { t with ckey := ck, ckWritten := ckw, ikey := ik, ikWritten := ikw, iv := iv }) ∧
    (exec .envEncode s = .next t →
      exec .envEncode { s with iv := iv, strictPad := b } = .next { t with iv := iv, strictPad := b }) ∧
    (exec .envDecode s = .next t → exec .envDecode { s with iv := iv } = .next { t with iv := iv }) ∧
    (∀ (i : Instr) (irqEn keyLock done werr : Bool) (err : ErrCode) (outLen : Word) (outBuf : Memory), exec i s = .next t →
      exec i { s with irqEn := irqEn, keyLock := keyLock, done := done, werr := werr, err := err, outLen := outLen,
                      outBuf := outBuf } =
        .next { t with irqEn := irqEn, keyLock := keyLock, werr := werr })

/-- Only ENCODE draws from the random source, at most once, and only after its length and key checks (R240). -/
def Obligations.OnlyEncodeDraws : Prop :=
  ∀ (i : Instr) (s t : State), exec i s = .next t →
    (t.rngCount = s.rngCount ∧ t.rngAnswers = s.rngAnswers) ∨
    (i = .envEncode ∧ lenOperand s ≤ encMax s ∧ keysLoaded s = true ∧
      t.rngCount = s.rngCount + 1 ∧ t.rngAnswers = s.rngAnswers.drop 1)

/-! ## The raw AES commands (40_aes.md R113, R120 to R123) -/

/-- With a whole number of blocks and CK loaded, each raw AES command writes its mode's output of IN_BUF's blocks. -/
def Obligations.RawAesCommandsOutput : Prop :=
  ∀ s : State, Config.LegalBufSize s.bufSize → 16 ≤ lenOperand s → lenOperand s % 16 = 0 → lenOperand s ≤ s.bufSize →
    s.ckWritten = 0xF →
    (∃ t, exec .aesEcbEnc s = .next t ∧ RestUnchanged s t ∧ t.outLen = s.len ∧
      CompletedWith t (blocksBytes ((blocksOf (inputBytes s (lenOperand s))).map (aesE (ckOperand s))))) ∧
    (∃ t, exec .aesEcbDec s = .next t ∧ RestUnchanged s t ∧ t.outLen = s.len ∧
      CompletedWith t (blocksBytes ((blocksOf (inputBytes s (lenOperand s))).map (aesD (ckOperand s))))) ∧
    (∃ t, exec .aesCbcEnc s = .next t ∧ RestUnchanged s t ∧ t.outLen = s.len ∧
      CompletedWith t (blocksBytes (cbcE (ckOperand s) (ivOperand s) (blocksOf (inputBytes s (lenOperand s)))))) ∧
    (∃ t, exec .aesCbcDec s = .next t ∧ RestUnchanged s t ∧ t.outLen = s.len ∧
      CompletedWith t (blocksBytes (cbcD (ckOperand s) (ivOperand s) (blocksOf (inputBytes s (lenOperand s))))))

/-- The raw AES commands check the length first, then the key, and read no input where a check fails. -/
def Obligations.RawAesCommandsCheckOrder : Prop :=
  ∀ (s : State) (i : Instr), i ∈ [Instr.aesEcbEnc, .aesEcbDec, .aesCbcEnc, .aesCbcDec] →
    (¬(16 ≤ lenOperand s ∧ lenOperand s % 16 = 0 ∧ lenOperand s ≤ s.bufSize) →
      exec i s = .next (raiseError .lengthError s)) ∧
    (16 ≤ lenOperand s → lenOperand s % 16 = 0 → lenOperand s ≤ s.bufSize → s.ckWritten ≠ 0xF →
      exec i s = .next (raiseError .keyNotLoaded s))

/-- The inverse cipher undoes the forward cipher, and the other way round, for every key and block (R109). -/
def Obligations.AesBlockFunctionsAreInverse : Prop :=
  ∀ k x : Block, aesD k (aesE k x) = x ∧ aesE k (aesD k x) = x

/-- CBC decryption undoes CBC encryption, and a different IV changes only the first plaintext block, by the difference of the IVs
(R112). -/
def Obligations.CbcModesAreInverse : Prop :=
  (∀ (k iv : Block) (p : List Block), cbcD k iv (cbcE k iv p) = p) ∧
  (∀ (k iv iv' c : Block) (cs : List Block),
    ∃ p ps, cbcD k iv (c :: cs) = p :: ps ∧ cbcD k iv' (c :: cs) = (p.xor (iv.xor iv')) :: ps)

/-- The field product: additive in its first factor, with 01 its unit, and multiplying by x is `xtime`; so `02•a` and `03•a` are as R106 writes them
(R17). -/
def Obligations.FieldProductLaws : Prop :=
  (∀ a b c : Byte, gfMul (a ^^^ b) c = gfMul a c ^^^ gfMul b c) ∧
  (∀ a b : Byte, gfMul (xtime a) b = xtime (gfMul a b)) ∧
  (∀ a : Byte, gfMul 0x01 a = a ∧ gfMul 0x02 a = xtime a ∧ gfMul 0x03 a = xtime a ^^^ a)

/-- The S-box table is the affine map of the multiplicative inverse that defines it, 0 taken to 0 (R101). -/
def Obligations.SboxIsAffineOfInverse : Prop :=
  ∀ x b : Byte, (gfMul x b = 1 ∨ (x = 0 ∧ b = 0)) →
    sbox x = b ^^^ b.rotateLeft 1 ^^^ b.rotateLeft 2 ^^^ b.rotateLeft 3 ^^^ b.rotateLeft 4 ^^^ 0x63

/-! ## HMAC_SHA256 (41_sha256_hmac.md R141, R152, R155) -/

/-- HMAC_SHA256 checks the length first, then IK; with both right the output is the 32-byte HMAC of the input (R155). -/
def Obligations.HmacCommandOutcome : Prop :=
  ∀ s : State, Config.LegalBufSize s.bufSize →
    (lenOperand s ≤ s.bufSize → s.ikWritten = 0xFF →
      ∃ t, exec .hmacSha256 s = .next t ∧ RestUnchanged s t ∧ t.outLen = 32 ∧
        CompletedWith t (hmac (ikOperand s) (inputBytes s (lenOperand s)))) ∧
    (s.bufSize < lenOperand s → exec .hmacSha256 s = .next (raiseError .lengthError s)) ∧
    (lenOperand s ≤ s.bufSize → s.ikWritten ≠ 0xFF → exec .hmacSha256 s = .next (raiseError .keyNotLoaded s))

/-- SHA-256's padding: the message, 0x80, the least number of zero bytes that makes whole 64-byte blocks, and the bit length as eight
big-endian bytes; 55 bytes make one block and 56 make two (R141). -/
def Obligations.ShaPaddingIsLeast : Prop :=
  (∀ m : List Byte, ∃ k : Nat,
    shaPad m = m ++ [0x80] ++ List.replicate k 0 ++ be64Bytes (BitVec.ofNat 64 (8 * m.length)) ∧
    (k : Int) = (55 - (m.length : Int)) % 64 ∧
    (shaPad m).length % 64 = 0 ∧ (∀ j, j < k → (m.length + 1 + j + 8) % 64 ≠ 0)) ∧
  (∀ n : Nat, n < 2 ^ 64 →
    (be64Bytes (BitVec.ofNat 64 n)).length = 8 ∧
    (be64Bytes (BitVec.ofNat 64 n)).foldl (fun acc b => 256 * acc + b.toNat) 0 = n) ∧
  (∀ m : List Byte, (m.length = 55 → (shaPad m).length = 64) ∧ (m.length = 56 → (shaPad m).length = 128))

/-- The result of the tag comparison is exact equality of the two 32-byte sequences (R152). -/
def Obligations.TagComparisonIsEquality : Prop :=
  ∀ a b : List Byte, a.length = 32 → b.length = 32 → (ctEq a b = true ↔ a = b)

/-! ## PKCS#7 (42_pkcs7.md R170 to R176) -/

/-- PAD appends p bytes of value p, 1 ≤ p ≤ 16, to a positive multiple of 16 bytes; an aligned sequence gets a full block (R170). -/
def Obligations.PadAppendsPBytesOfValueP : Prop :=
  ∀ m : List Byte, ∃ p : Nat, 1 ≤ p ∧ p ≤ 16 ∧ p = 16 - m.length % 16 ∧
    pad m = m ++ List.replicate p (BitVec.ofNat 8 p) ∧
    (pad m).length = m.length + p ∧ (pad m).length = 16 * (m.length / 16 + 1) ∧
    (m.length % 16 = 0 → pad m = m ++ List.replicate 16 0x10)

/-- UNPAD_LAX examines the last byte only (R171); UNPAD_STRICT also examines every one of the last p bytes (R172). -/
def Obligations.UnpadChecks : Prop :=
  ∀ (d : List Byte) (p : Byte), 16 ≤ d.length → d.length % 16 = 0 → d[d.length - 1]? = some p →
    (p.toNat = 0 ∨ 16 < p.toNat → unpadLax d = none ∧ unpadStrict d = none) ∧
    (1 ≤ p.toNat → p.toNat ≤ 16 →
      unpadLax d = some (d.take (d.length - p.toNat)) ∧ (d.take (d.length - p.toNat)).length + p.toNat = d.length ∧
      ((∃ i, d.length - p.toNat ≤ i ∧ i < d.length ∧ d[i]? ≠ some p) → unpadStrict d = none) ∧
      ((∀ i, d.length - p.toNat ≤ i → i < d.length → d[i]? = some p) →
        unpadStrict d = some (d.take (d.length - p.toNat))))

/-- UNPAD undoes PAD under both settings; the strict check accepts only what the lax one accepts, with the same result (R174). -/
def Obligations.UnpadUndoesPad : Prop :=
  (∀ (strict : Bool) (m : List Byte), unpad strict (pad m) = some m) ∧
  (∀ d r : List Byte, unpad true d = some r → unpad false d = some r)

/-- PKCS7_PAD: the padded input, or LengthError from BUF_SIZE on (R175). -/
def Obligations.Pkcs7PadOutcome : Prop :=
  ∀ s : State, Config.LegalBufSize s.bufSize →
    (lenOperand s ≤ s.bufSize - 1 →
      ∃ t, exec .pkcs7Pad s = .next t ∧ RestUnchanged s t ∧ t.outLen.toNat = 16 * (lenOperand s / 16 + 1) ∧
        CompletedWith t (pad (inputBytes s (lenOperand s)))) ∧
    (s.bufSize - 1 < lenOperand s → exec .pkcs7Pad s = .next (raiseError .lengthError s))

/-- PKCS7_UNPAD checks the length first, then the padding under STRICT_PAD; where both are right the output is the input without its
padding (R176). -/
def Obligations.Pkcs7UnpadOutcome : Prop :=
  ∀ s : State, Config.LegalBufSize s.bufSize →
    (¬(16 ≤ lenOperand s ∧ lenOperand s % 16 = 0 ∧ lenOperand s ≤ s.bufSize) →
      exec .pkcs7Unpad s = .next (raiseError .lengthError s)) ∧
    (16 ≤ lenOperand s → lenOperand s % 16 = 0 → lenOperand s ≤ s.bufSize →
      (unpad s.strictPad (inputBytes s (lenOperand s)) = none →
        ∃ t, exec .pkcs7Unpad s = .next t ∧ CompletedWithError t .invalidPadding ∧ RestUnchanged s t) ∧
      (∀ r, unpad s.strictPad (inputBytes s (lenOperand s)) = some r →
        ∃ t, exec .pkcs7Unpad s = .next t ∧ RestUnchanged s t ∧ CompletedWith t r))

/-! ## ENCODE and DECODE (43_envelope.md R190 to R202) -/

/-- ENCODE, with both keys loaded, a plaintext within ENC_MAX and a successful draw: the envelope `iv ∥ C ∥ T` (R191). -/
def Obligations.EncodeOutput : Prop :=
  ∀ (s : State) (d : BitVec 128), Config.LegalBufSize s.bufSize → lenOperand s ≤ s.bufSize - 49 →
    s.ckWritten = 0xF → s.ikWritten = 0xFF → rngNext s = .ok d →
    ∃ (t : State) (m c : List Byte),
      m = inputBytes s (lenOperand s) ∧
      c = blocksBytes (cbcE (ckOperand s) (blockOfDraw d) (blocksOf (pad m))) ∧
      exec .envEncode s = .next t ∧ RestUnchanged s t ∧
      CompletedWith t ((blockOfDraw d).bytes ++ c ++ hmac (ikOperand s) ((blockOfDraw d).bytes ++ c)) ∧
      t.outLen.toNat = 64 + 16 * (lenOperand s / 16) ∧
      t.rngCount = s.rngCount + 1 ∧ t.rngAnswers = s.rngAnswers.drop 1

/-- ENCODE checks the length, then the keys, then the draw; no draw is taken where an earlier check fails (R191). -/
def Obligations.EncodeCheckOrder : Prop :=
  ∀ s : State,
    (s.bufSize - 49 < lenOperand s → exec .envEncode s = .next (raiseError .lengthError s)) ∧
    (lenOperand s ≤ s.bufSize - 49 → s.ckWritten ≠ 0xF ∨ s.ikWritten ≠ 0xFF →
      exec .envEncode s = .next (raiseError .keyNotLoaded s)) ∧
    (lenOperand s ≤ s.bufSize - 49 → s.ckWritten = 0xF → s.ikWritten = 0xFF → rngNext s = .fail →
      ∃ t, exec .envEncode s = .next t ∧ CompletedWithError t .randomSourceFailure ∧ RestUnchanged s t ∧
        t.rngCount = s.rngCount + 1)

/-- ENC_MAX = BUF_SIZE − 49 is the largest L that ENCODE accepts and the largest whose envelope fits OUT_BUF (R198). -/
def Obligations.EncMaxIsTheLargestThatFits : Prop :=
  ∀ s : State, Config.LegalBufSize s.bufSize →
    encMax s = s.bufSize - 49 ∧ (s.bufSize = 4096 → encMax s = 4047) ∧
    (∀ l : Nat, 64 + 16 * (l / 16) ≤ s.bufSize ↔ l ≤ encMax s) ∧
    (∀ t, exec .envEncode s = .next t → (t.err = .lengthError ↔ encMax s < lenOperand s))

/-- DECODE, with both keys loaded and an envelope of a right length: where the recomputed tag is the received one and the padding is
accepted, the plaintext (R192). -/
def Obligations.DecodeOutput : Prop :=
  ∀ (s : State) (e r : List Byte), Config.LegalBufSize s.bufSize →
    64 ≤ lenOperand s → lenOperand s % 16 = 0 → lenOperand s ≤ s.bufSize → s.ckWritten = 0xF → s.ikWritten = 0xFF →
    e = inputBytes s (lenOperand s) →
    hmac (ikOperand s) (e.take (lenOperand s - 32)) = e.drop (lenOperand s - 32) →
    unpad s.strictPad (blocksBytes (cbcD (ckOperand s) (blockOf (e.take 16))
      (blocksOf ((e.take (lenOperand s - 32)).drop 16)))) = some r →
    ∃ t, exec .envDecode s = .next t ∧ RestUnchanged s t ∧ CompletedWith t r

/-- DECODE reports the first failing check: the envelope length, the buffer length, the keys, the tag, the padding (R192, R230). -/
def Obligations.DecodeCheckOrder : Prop :=
  ∀ (s : State) (e : List Byte), e = inputBytes s (lenOperand s) →
    (¬(64 ≤ lenOperand s ∧ lenOperand s % 16 = 0) → exec .envDecode s = .next (raiseError .malformedEnvelope s)) ∧
    (64 ≤ lenOperand s → lenOperand s % 16 = 0 →
      (s.bufSize < lenOperand s → exec .envDecode s = .next (raiseError .lengthError s)) ∧
      (lenOperand s ≤ s.bufSize →
        (s.ckWritten ≠ 0xF ∨ s.ikWritten ≠ 0xFF → exec .envDecode s = .next (raiseError .keyNotLoaded s)) ∧
        (s.ckWritten = 0xF → s.ikWritten = 0xFF →
          (hmac (ikOperand s) (e.take (lenOperand s - 32)) ≠ e.drop (lenOperand s - 32) →
            ∃ t, exec .envDecode s = .next t ∧ CompletedWithError t .integrityFailure ∧ RestUnchanged s t) ∧
          (hmac (ikOperand s) (e.take (lenOperand s - 32)) = e.drop (lenOperand s - 32) →
            unpad s.strictPad (blocksBytes (cbcD (ckOperand s) (blockOf (e.take 16))
              (blocksOf ((e.take (lenOperand s - 32)).drop 16)))) = none →
            ∃ t, exec .envDecode s = .next t ∧ CompletedWithError t .invalidPadding ∧ RestUnchanged s t))))

/-- Verify before decrypt: where DECODE answers IntegrityFailure, its whole outcome is the same under every cipher key, so nothing of
a decryption shows (R194). -/
def Obligations.IntegrityFailureHidesDecryption : Prop :=
  ∀ (s t : State) (ck : Vector Word 4), exec .envDecode s = .next t → t.err = .integrityFailure →
    CompletedWithError t .integrityFailure ∧
    exec .envDecode { s with ckey := ck } = .next { t with ckey := ck }

/-- The round trip: DECODE of what ENCODE wrote, with the same keys, gives the plaintext back, whatever the draw and the setting of
STRICT_PAD (R201). -/
def Obligations.DecodeOfEncodeRoundTrip : Prop :=
  ∀ (s : State) (m : List Byte) (d : BitVec 128), Config.LegalBufSize s.bufSize → HoldsInput s m →
    m.length ≤ s.bufSize - 49 → s.ckWritten = 0xF → s.ikWritten = 0xFF → rngNext s = .ok d →
    ∃ t, exec .envEncode s = .next t ∧ t.err = .ok ∧
      ∀ u : State, u.bufSize = s.bufSize → u.ckey = s.ckey → u.ikey = s.ikey → u.ckWritten = 0xF → u.ikWritten = 0xFF →
        u.len = t.outLen → (∀ i, i < t.outLen.toNat → u.inBuf.get i = t.outBuf.get i) →
        ∃ w, exec .envDecode u = .next w ∧ CompletedWith w m

/-- A wrong integrity key: DECODE of what ENCODE wrote, under an IK that gives the signed region another HMAC, is IntegrityFailure
(R202). -/
def Obligations.WrongIntegrityKeyIsRejected : Prop :=
  ∀ (s : State) (m : List Byte) (d : BitVec 128), Config.LegalBufSize s.bufSize → HoldsInput s m →
    m.length ≤ s.bufSize - 49 → s.ckWritten = 0xF → s.ikWritten = 0xFF → rngNext s = .ok d →
    ∃ t, exec .envEncode s = .next t ∧ t.err = .ok ∧
      ∀ u : State, u.bufSize = s.bufSize → u.ckWritten = 0xF → u.ikWritten = 0xFF →
        u.len = t.outLen → (∀ i, i < t.outLen.toNat → u.inBuf.get i = t.outBuf.get i) →
        hmac (ikOperand u) ((blockOfDraw d).bytes ++ envCiphertext (ckOperand s) (blockOfDraw d) m) ≠
          hmac (ikOperand s) ((blockOfDraw d).bytes ++ envCiphertext (ckOperand s) (blockOfDraw d) m) →
        ∃ w, exec .envDecode u = .next w ∧ CompletedWithError w .integrityFailure

/-! ## The host port (10_state.md R21 to R45; 20_memory.md R60 to R71) -/

/-- The offsets at which an aligned 32-bit access is answered `ok`, for a given BUF_SIZE (R21, R61). -/
def Obligations.MappedOffsetsAnswerOk : Prop :=
  ∀ (s : State) (addr : Offset) (bits : Nat) (v : Word), Config.LegalBufSize s.bufSize →
    (bits = 32 ∧ addr.toNat % 4 = 0 ∧
        (addr.toNat < 0x01C ∨ (0x020 ≤ addr.toNat ∧ addr.toNat < 0x030) ∨ (0x040 ≤ addr.toNat ∧ addr.toNat < 0x070) ∨
          (0x1000 ≤ addr.toNat ∧ addr.toNat < 0x1000 + s.bufSize) ∨
          (0x2000 ≤ addr.toNat ∧ addr.toNat < 0x2000 + s.bufSize)) →
      (hostAccess (.write addr bits v) s).response = some .ok ∧
      ∃ data, (hostAccess (.read addr bits) s).response = some (.okData data)) ∧
    (¬(bits = 32 ∧ addr.toNat % 4 = 0 ∧
        (addr.toNat < 0x01C ∨ (0x020 ≤ addr.toNat ∧ addr.toNat < 0x030) ∨ (0x040 ≤ addr.toNat ∧ addr.toNat < 0x070) ∨
          (0x1000 ≤ addr.toNat ∧ addr.toNat < 0x1000 + s.bufSize) ∨
          (0x2000 ≤ addr.toNat ∧ addr.toNat < 0x2000 + s.bufSize))) →
      hostAccess (.write addr bits v) s = { s with response := some .buserr } ∧
      hostAccess (.read addr bits) s = { s with response := some .buserr })

/-- A read changes nothing: only the port's answer and the count of free values move (R71). -/
def Obligations.ReadsHaveNoSideEffect : Prop :=
  ∀ (s : State) (addr : Offset) (bits : Nat),
    hostAccess (.read addr bits) s =
      { s with response := (hostAccess (.read addr bits) s).response,
               freeCount := (hostAccess (.read addr bits) s).freeCount }

/-- A read of a key register returns 0 and a normal answer, in `idle` and in `busy` (R65). -/
def Obligations.KeyRegistersReadZero : Prop :=
  ∀ (s : State) (addr : Offset),
    addr ∈ ([0x020, 0x024, 0x028, 0x02C, 0x040, 0x044, 0x048, 0x04C, 0x050, 0x054, 0x058, 0x05C] : List Offset) →
    hostAccess (.read addr 32) s = { s with response := some (.okData 0) }

/-- Every location reads the same under every value of the keys (R35). -/
def Obligations.ReadsDoNotDependOnKeys : Prop :=
  ∀ (s : State) (addr : Offset) (bits : Nat) (ck : Vector Word 4) (ik : Vector Word 8),
    hostAccess (.read addr bits) { s with ckey := ck, ikey := ik } =
      { hostAccess (.read addr bits) s with ckey := ck, ikey := ik }

/-- A write to a read-only location is answered `ok` and changes nothing, and writes leave the read-only bits of CTRL and STATUS as
they are; none of this sets WERR (R64). -/
def Obligations.ReadOnlyLocationsIgnoreWrites : Prop :=
  ∀ (s : State) (v : Word),
    (∀ addr ∈ ([0x000, 0x004, 0x018] : List Offset),
      hostAccess (.write addr 32 v) s = { s with response := some .ok }) ∧
    (∀ addr : Offset, addr.toNat % 4 = 0 → 0x2000 ≤ addr.toNat → addr.toNat < 0x2000 + s.bufSize → s.bufSize ≤ 4096 →
      hostAccess (.write addr 32 v) s = { s with response := some .ok }) ∧
    (∀ j, 3 ≤ j → (ctrlWord (hostAccess (.write 0x008 32 v) s)).getLsbD j = false) ∧
    (s.seq = .idle → (hostAccess (.write 0x008 32 v) s).werr = s.werr) ∧
    (∀ j, j ≠ 1 → j ≠ 2 →
      (statusWord (hostAccess (.write 0x010 32 v) s)).getLsbD j = (statusWord s).getLsbD j) ∧
    ((hostAccess (.write 0x010 32 v) s).werr = true → s.werr = true)

/-- A CTRL write: its three bits in `idle`, dropped in `busy` (R25). -/
def Obligations.CtrlWrite : Prop :=
  ∀ (s : State) (v : Word),
    (s.seq = .idle → hostAccess (.write 0x008 32 v) s =
      { s with irqEn := v.getLsbD 0, strictPad := v.getLsbD 1, keyLock := s.keyLock || v.getLsbD 2,
               response := some .ok }) ∧
    (s.seq = .busy → hostAccess (.write 0x008 32 v) s = { s with werr := true, response := some .ok })

/-- KEY_LOCK, once set, is cleared by nothing but reset (R26). -/
def Obligations.KeyLockClearedOnlyByReset : Prop :=
  ∀ s t : State, s.keyLock = true → step s = .next t →
    (t.keyLock = true ∧ ∀ rest, s.inputs ≠ .reset :: rest) ∨ (t.keyLock = false ∧ ∃ rest, s.inputs = .reset :: rest)

/-- Under KEY_LOCK a write to any key register is dropped: it changes no key bit and no load bit, sets WERR and is answered `ok`; so no
step but a reset changes a key or a load bit (R27). -/
def Obligations.KeyLockDropsKeyWrites : Prop :=
  ∀ s : State, s.keyLock = true →
    (∀ (addr : Offset) (v : Word),
      addr ∈ ([0x020, 0x024, 0x028, 0x02C, 0x040, 0x044, 0x048, 0x04C, 0x050, 0x054, 0x058, 0x05C] : List Offset) →
      hostAccess (.write addr 32 v) s = { s with werr := true, response := some .ok }) ∧
    (∀ t, (∀ rest, s.inputs ≠ .reset :: rest) → step s = .next t →
      t.ckey = s.ckey ∧ t.ikey = s.ikey ∧ t.ckWritten = s.ckWritten ∧ t.ikWritten = s.ikWritten)

/-- A STATUS write clears DONE by bit 1 and WERR by bit 2 and does nothing else, in `idle` and in `busy` alike (R30). -/
def Obligations.StatusWriteClears : Prop :=
  ∀ (s : State) (v : Word),
    hostAccess (.write 0x010 32 v) s =
      { s with done := if v.getLsbD 1 then false else s.done, werr := if v.getLsbD 2 then false else s.werr,
               response := some .ok }

/-- A write to a key word in `idle` without KEY_LOCK sets that word and its load bit, and no other of either (R36). -/
def Obligations.KeyWriteSetsWordAndLoadBit : Prop :=
  ∀ (s : State) (v : Word), s.seq = .idle → s.keyLock = false →
    (∀ i : Fin 4, ∃ t, hostAccess (.write (BitVec.ofNat 14 (0x020 + 4 * i.val)) 32 v) s = t ∧ t.ckey[i] = v ∧
      t.ckWritten.getLsbD i.val = true ∧
      (∀ j : Fin 4, j ≠ i → t.ckey[j] = s.ckey[j] ∧ t.ckWritten.getLsbD j.val = s.ckWritten.getLsbD j.val) ∧
      t = { s with ckey := t.ckey, ckWritten := t.ckWritten, response := some .ok }) ∧
    (∀ i : Fin 8, ∃ t, hostAccess (.write (BitVec.ofNat 14 (0x040 + 4 * i.val)) 32 v) s = t ∧ t.ikey[i] = v ∧
      t.ikWritten.getLsbD i.val = true ∧
      (∀ j : Fin 8, j ≠ i → t.ikey[j] = s.ikey[j] ∧ t.ikWritten.getLsbD j.val = s.ikWritten.getLsbD j.val) ∧
      t = { s with ikey := t.ikey, ikWritten := t.ikWritten, response := some .ok })

/-- A read of LEN or of an IV register returns its value in `idle` and in `busy` alike (R67); written in `idle`, it reads back as
written, whatever the value (R31, R37). -/
def Obligations.LenAndIvReadBack : Prop :=
  ∀ (s : State) (v : Word),
    hostAccess (.read 0x014 32) s = { s with response := some (.okData s.len) } ∧
    (∀ i : Fin 4, hostAccess (.read (BitVec.ofNat 14 (0x060 + 4 * i.val)) 32) s =
      { s with response := some (.okData s.iv[i]) }) ∧
    (s.seq = .idle →
      (hostAccess (.read 0x014 32) (hostAccess (.write 0x014 32 v) s)).response = some (.okData v) ∧
      hostAccess (.write 0x014 32 v) s = { s with len := v, response := some .ok } ∧
      (∀ i : Fin 4,
        (hostAccess (.read (BitVec.ofNat 14 (0x060 + 4 * i.val)) 32)
          (hostAccess (.write (BitVec.ofNat 14 (0x060 + 4 * i.val)) 32 v) s)).response = some (.okData v) ∧
        hostAccess (.write (BitVec.ofNat 14 (0x060 + 4 * i.val)) 32 v) s =
          { s with iv := s.iv.set i v, response := some .ok }))

/-- What a read of CTRL, CMD, OUT_LEN and a specified IN_BUF word returns, in `idle` and in `busy` alike: CTRL's three bits with its
reserved bits 0 (R24), CMD (R28), OUT_LEN (R32), the little-endian word (R40, R69). In `busy` OUT_LEN reads 0, and STATUS reads BUSY 1,
DONE 0 and ERR 0 (R67). No such read changes anything. -/
def Obligations.RegisterReads : Prop :=
  ∀ s : State,
    (∃ w : Word, hostAccess (.read 0x008 32) s = { s with response := some (.okData w) } ∧
      w.getLsbD 0 = s.irqEn ∧ w.getLsbD 1 = s.strictPad ∧ w.getLsbD 2 = s.keyLock ∧ (∀ j, 3 ≤ j → w.getLsbD j = false)) ∧
    hostAccess (.read 0x00C 32) s = { s with response := some (.okData s.cmd) } ∧
    hostAccess (.read 0x018 32) s = { s with response := some (.okData s.outLen) } ∧
    (∀ (k : Nat) (b0 b1 b2 b3 : Byte), Config.LegalBufSize s.bufSize → 4 * k < s.bufSize →
      s.inBuf.get (4 * k) = some b0 → s.inBuf.get (4 * k + 1) = some b1 →
      s.inBuf.get (4 * k + 2) = some b2 → s.inBuf.get (4 * k + 3) = some b3 →
      hostAccess (.read (BitVec.ofNat 14 (0x1000 + 4 * k)) 32) s =
        { s with response := some (.okData (b3 ++ b2 ++ b1 ++ b0)) }) ∧
    (s.Inv → s.seq = .busy →
      hostAccess (.read 0x018 32) s = { s with response := some (.okData 0) } ∧
      ∃ w : Word, hostAccess (.read 0x010 32) s = { s with response := some (.okData w) } ∧
        w.getLsbD 0 = true ∧ w.getLsbD 1 = false ∧ w.extractLsb' 4 4 = 0)

/-- A word written to IN_BUF in `idle` stands there least significant byte first, reads back, and leaves every other byte of IN_BUF
and everything else alone (R40, R69). -/
def Obligations.InBufWordWrite : Prop :=
  ∀ (s : State) (k : Nat) (v : Word), s.Inv → s.seq = .idle → 4 * k < s.bufSize →
    ∃ t, hostAccess (.write (BitVec.ofNat 14 (0x1000 + 4 * k)) 32 v) s = t ∧
      (∀ j, j < 4 → t.inBuf.get (4 * k + j) = some (v.extractLsb' (8 * j) 8)) ∧
      (∀ a, a < 4 * k ∨ 4 * k + 4 ≤ a → t.inBuf.get a = s.inBuf.get a) ∧
      t = { s with inBuf := t.inBuf, response := some .ok } ∧
      (hostAccess (.read (BitVec.ofNat 14 (0x1000 + 4 * k)) 32) t).response = some (.okData v)

/-- An OUT_BUF word read: in `idle` the little-endian word of four specified bytes; in `busy` a word of fresh free values, whatever
OUT_BUF holds (R41, R67). That the word is `Config.freeByte` at a counter is the model's form of the value R67 leaves open (log 5). -/
def Obligations.OutBufWordRead : Prop :=
  ∀ (s : State) (k : Nat), Config.LegalBufSize s.bufSize → 4 * k < s.bufSize →
    (∀ b0 b1 b2 b3 : Byte, s.seq = .idle → s.outBuf.get (4 * k) = some b0 → s.outBuf.get (4 * k + 1) = some b1 →
      s.outBuf.get (4 * k + 2) = some b2 → s.outBuf.get (4 * k + 3) = some b3 →
      hostAccess (.read (BitVec.ofNat 14 (0x2000 + 4 * k)) 32) s =
        { s with response := some (.okData (b3 ++ b2 ++ b1 ++ b0)) }) ∧
    (s.seq = .busy →
      hostAccess (.read (BitVec.ofNat 14 (0x2000 + 4 * k)) 32) s =
        { s with freeCount := s.freeCount + 4,
                 response := some (.okData (Config.freeByte (s.freeCount + 3) ++ Config.freeByte (s.freeCount + 2) ++
                   Config.freeByte (s.freeCount + 1) ++ Config.freeByte s.freeCount)) })

/-- The identification registers: ID reads its constant and PARAM reads BUF_SIZE, its reserved bits 0, in every state, and writes to
either are ignored with an `ok` (R22, R23). -/
def Obligations.IdentificationRegistersRead : Prop :=
  ∀ s : State, Config.LegalBufSize s.bufSize →
    hostAccess (.read 0x000 32) s = { s with response := some (.okData 0x41454E31) } ∧
    (∃ w : Word, hostAccess (.read 0x004 32) s = { s with response := some (.okData w) } ∧
      (w.extractLsb' 0 16).toNat = s.bufSize ∧ w.extractLsb' 16 16 = 0) ∧
    (∀ v : Word, hostAccess (.write 0x000 32 v) s = { s with response := some .ok } ∧
      hostAccess (.write 0x004 32 v) s = { s with response := some .ok })

/-- A STATUS read returns each field in its place, ERR as the code of R220, with every reserved bit 0, and changes nothing (R29, R45). -/
def Obligations.StatusReadFields : Prop :=
  ∀ s : State, ∃ w : Word, hostAccess (.read 0x010 32) s = { s with response := some (.okData w) } ∧
    (w.getLsbD 0 = true ↔ s.seq = .busy) ∧ w.getLsbD 1 = s.done ∧ w.getLsbD 2 = s.werr ∧ w.getLsbD 3 = false ∧
    w.extractLsb' 4 4 =
      (match s.err with
        | .ok => 0
        | .malformedEnvelope => 1
        | .integrityFailure => 2
        | .invalidPadding => 3
        | .randomSourceFailure => 4
        | .illegalCommand => 5
        | .lengthError => 6
        | .keyNotLoaded => 7) ∧
    (w.getLsbD 8 = true ↔ ∀ i : Fin 4, s.ckWritten.getLsbD i.val = true) ∧
    (w.getLsbD 9 = true ↔ ∀ i : Fin 8, s.ikWritten.getLsbD i.val = true) ∧
    (∀ j, 10 ≤ j → w.getLsbD j = false)

/-- The busy write barrier: a write to CTRL, CMD, LEN, a key, an IV register or IN_BUF only sets WERR, a STATUS write takes effect, a
write to a read-only location is ignored, and no access of any kind changes an input of the running command (R66). -/
def Obligations.BusyWriteBarrier : Prop :=
  ∀ s : State, s.seq = .busy → Config.LegalBufSize s.bufSize →
    (∀ (addr : Offset) (v : Word), addr.toNat % 4 = 0 →
      (addr.toNat = 0x008 ∨ addr.toNat = 0x00C ∨ addr.toNat = 0x014 ∨ (0x020 ≤ addr.toNat ∧ addr.toNat < 0x030) ∨
        (0x040 ≤ addr.toNat ∧ addr.toNat < 0x070) ∨ (0x1000 ≤ addr.toNat ∧ addr.toNat < 0x1000 + s.bufSize)) →
      hostAccess (.write addr 32 v) s = { s with werr := true, response := some .ok }) ∧
    (∀ v : Word, hostAccess (.write 0x010 32 v) s =
      { s with done := s.done && !v.getLsbD 1, werr := s.werr && !v.getLsbD 2, response := some .ok }) ∧
    (∀ (addr : Offset) (v : Word), addr.toNat % 4 = 0 →
      (addr.toNat = 0x000 ∨ addr.toNat = 0x004 ∨ addr.toNat = 0x018 ∨
        (0x2000 ≤ addr.toNat ∧ addr.toNat < 0x2000 + s.bufSize)) →
      hostAccess (.write addr 32 v) s = { s with response := some .ok }) ∧
    (∀ a : BusAccess, frozenInputs (hostAccess a s) = frozenInputs s ∧ (hostAccess a s).seq = .busy)

/-- The interrupt output is IRQ_EN and DONE: a completion raises it where it is enabled; acknowledging, disabling in `idle` and starting
a command each clear it; no read changes it (R235). -/
def Obligations.InterruptOutput : Prop :=
  ∀ s : State,
    (irq s = true ↔ s.irqEn = true ∧ s.done = true) ∧
    (∀ i t, exec i s = .next t → irq t = s.irqEn) ∧
    irq (hostAccess (.write 0x010 32 0x2) s) = false ∧
    (s.seq = .idle → ∀ v : Word, v.getLsbD 0 = false → irq (hostAccess (.write 0x008 32 v) s) = false) ∧
    (s.seq = .idle → ∀ v : Word, irq (hostAccess (.write 0x00C 32 v) s) = false) ∧
    (∀ addr bits, irq (hostAccess (.read addr bits) s) = irq s)

/-! ## Reset (70_reset_and_hazards.md R260 to R262) -/

/-- The reset input puts every architectural item into its reset state, whatever the sequencer was doing; what registers read back is
the table of R260, and no buffer byte is specified. That an assertion is one event of the list, between two accesses, is the model's
choice (log 1, 24). -/
def Obligations.ResetInputRestoresEveryRegister : Prop :=
  ∀ (s : State) (rest : List Input), s.inputs = .reset :: rest →
    ∃ t, step s = .next t ∧ t.seq = .idle ∧ idWord = 0x41454E31 ∧ paramWord t = paramWord s ∧ ctrlWord t = 0 ∧ t.cmd = 0 ∧
      statusWord t = 0 ∧ t.len = 0 ∧ t.outLen = 0 ∧ (∀ i : Fin 4, t.ckey[i] = 0) ∧ (∀ i : Fin 8, t.ikey[i] = 0) ∧
      t.ckWritten = 0 ∧ t.ikWritten = 0 ∧ (∀ i : Fin 4, t.iv[i] = 0) ∧
      (∀ a, t.inBuf.get a = none ∧ t.outBuf.get a = none) ∧ irq t = false

/-- A reset while a command runs abandons it, whatever events follow: no result is written, no draw is taken, a sequencer's turn after it
completes nothing, and until the next write to CMD nothing ever completes (R262). The model's choices in this form: an assertion is one
event of the list (log 1, 24), a turn in `idle` only uses its event up (log 3), and the random source's answers survive a reset
(log 15). -/
def Obligations.ResetAbandonsTheCommand : Prop :=
  ∀ (s : State) (rest : List Input), s.seq = .busy → s.inputs = .reset :: rest →
    ∃ t, step s = .next t ∧ t.inputs = rest ∧ t.seq = .idle ∧ t.done = false ∧ t.err = .ok ∧ t.outLen = 0 ∧
      (∀ a, t.outBuf.get a = none) ∧ t.rngCount = s.rngCount ∧ t.rngAnswers = s.rngAnswers ∧
      (rest = [] → step t = .next t) ∧
      (∀ later, rest = .sequencer :: later → step t = .next { t with inputs := later }) ∧
      ((∀ bits v, Input.access (.write 0x00C bits v) ∉ rest) →
        ∀ (n : Nat) (u : State), Sys2Proof.core.run n t = .next u →
          u.seq = .idle ∧ u.done = false ∧ u.err = .ok ∧ u.outLen = 0 ∧ (∀ a, u.outBuf.get a = none) ∧
            u.rngCount = s.rngCount ∧ u.rngAnswers = s.rngAnswers)

/-! ## The host-program notation (30_encoding.md R87) -/

/-- LOAD b, issued in `idle`, leaves b in IN_BUF and its length in LEN: what a command then reads is b (R87, R40). -/
def Obligations.LoadPlacesTheInput : Prop :=
  ∀ (s : State) (b : List Byte), s.Inv → s.seq = .idle → b.length ≤ s.bufSize →
    ∃ t, Sys2Proof.core.run ((b.length + 3) / 4 + 1) { s with inputs := hostLOAD b } = .next t ∧
      t.inputs = [] ∧ t.seq = .idle ∧ t.len = BitVec.ofNat 32 b.length ∧ inputBytes t b.length = b ∧
      t.ckey = s.ckey ∧ t.ikey = s.ikey ∧ t.iv = s.iv ∧ t.outBuf = s.outBuf

/-- SETCK b and SETIK b, issued in `idle` without KEY_LOCK, load the two keys: CK is b, IK is b, and the LOADED bits are 1 (R87,
R36, R45). -/
def Obligations.SetKeysLoadTheKeys : Prop :=
  ∀ (s : State) (b : List Byte), s.seq = .idle → s.keyLock = false →
    (b.length = 16 → ∃ t, Sys2Proof.core.run 4 { s with inputs := hostSETCK b } = .next t ∧
      t.inputs = [] ∧ (ckOperand t).bytes = b ∧ ckLoaded t = true ∧ t.ikey = s.ikey ∧ t.iv = s.iv) ∧
    (b.length = 32 → ∃ t, Sys2Proof.core.run 8 { s with inputs := hostSETIK b } = .next t ∧
      t.inputs = [] ∧ ikOperand t = b ∧ ikLoaded t = true ∧ t.ckey = s.ckey ∧ t.iv = s.iv)
end

