-- ==== Sys2Proof/Laws/State.lean ====
section
/-! SUPPORT. One lemma per field of State per update, true by rfl, so that no later proof unfolds a record update. -/

namespace Sys2Proof.Machine

/-! ## afterInput -/

@[simp] theorem afterInput_irqEn (s : State) (n : Nat) : (afterInput s n).irqEn = s.irqEn := rfl
@[simp] theorem afterInput_strictPad (s : State) (n : Nat) : (afterInput s n).strictPad = s.strictPad := rfl
@[simp] theorem afterInput_keyLock (s : State) (n : Nat) : (afterInput s n).keyLock = s.keyLock := rfl
@[simp] theorem afterInput_cmd (s : State) (n : Nat) : (afterInput s n).cmd = s.cmd := rfl
@[simp] theorem afterInput_done (s : State) (n : Nat) : (afterInput s n).done = s.done := rfl
@[simp] theorem afterInput_werr (s : State) (n : Nat) : (afterInput s n).werr = s.werr := rfl
@[simp] theorem afterInput_err (s : State) (n : Nat) : (afterInput s n).err = s.err := rfl
@[simp] theorem afterInput_len (s : State) (n : Nat) : (afterInput s n).len = s.len := rfl
@[simp] theorem afterInput_outLen (s : State) (n : Nat) : (afterInput s n).outLen = s.outLen := rfl
@[simp] theorem afterInput_ckey (s : State) (n : Nat) : (afterInput s n).ckey = s.ckey := rfl
@[simp] theorem afterInput_ikey (s : State) (n : Nat) : (afterInput s n).ikey = s.ikey := rfl
@[simp] theorem afterInput_iv (s : State) (n : Nat) : (afterInput s n).iv = s.iv := rfl
@[simp] theorem afterInput_ckWritten (s : State) (n : Nat) : (afterInput s n).ckWritten = s.ckWritten := rfl
@[simp] theorem afterInput_ikWritten (s : State) (n : Nat) : (afterInput s n).ikWritten = s.ikWritten := rfl
@[simp] theorem afterInput_seq (s : State) (n : Nat) : (afterInput s n).seq = s.seq := rfl
@[simp] theorem afterInput_inBuf (s : State) (n : Nat) : (afterInput s n).inBuf = s.inBuf := rfl
@[simp] theorem afterInput_outBuf (s : State) (n : Nat) : (afterInput s n).outBuf = s.outBuf := rfl
@[simp] theorem afterInput_bufSize (s : State) (n : Nat) : (afterInput s n).bufSize = s.bufSize := rfl
@[simp] theorem afterInput_freeCount (s : State) (n : Nat) : (afterInput s n).freeCount = (s.inBuf.readBytes 0 n s.freeCount).2 := rfl
@[simp] theorem afterInput_rngAnswers (s : State) (n : Nat) : (afterInput s n).rngAnswers = s.rngAnswers := rfl
@[simp] theorem afterInput_rngCount (s : State) (n : Nat) : (afterInput s n).rngCount = s.rngCount := rfl
@[simp] theorem afterInput_inputs (s : State) (n : Nat) : (afterInput s n).inputs = s.inputs := rfl
@[simp] theorem afterInput_response (s : State) (n : Nat) : (afterInput s n).response = s.response := rfl

/-! ## rngDrawn -/

@[simp] theorem rngDrawn_irqEn (s : State) : (rngDrawn s).irqEn = s.irqEn := rfl
@[simp] theorem rngDrawn_strictPad (s : State) : (rngDrawn s).strictPad = s.strictPad := rfl
@[simp] theorem rngDrawn_keyLock (s : State) : (rngDrawn s).keyLock = s.keyLock := rfl
@[simp] theorem rngDrawn_cmd (s : State) : (rngDrawn s).cmd = s.cmd := rfl
@[simp] theorem rngDrawn_done (s : State) : (rngDrawn s).done = s.done := rfl
@[simp] theorem rngDrawn_werr (s : State) : (rngDrawn s).werr = s.werr := rfl
@[simp] theorem rngDrawn_err (s : State) : (rngDrawn s).err = s.err := rfl
@[simp] theorem rngDrawn_len (s : State) : (rngDrawn s).len = s.len := rfl
@[simp] theorem rngDrawn_outLen (s : State) : (rngDrawn s).outLen = s.outLen := rfl
@[simp] theorem rngDrawn_ckey (s : State) : (rngDrawn s).ckey = s.ckey := rfl
@[simp] theorem rngDrawn_ikey (s : State) : (rngDrawn s).ikey = s.ikey := rfl
@[simp] theorem rngDrawn_iv (s : State) : (rngDrawn s).iv = s.iv := rfl
@[simp] theorem rngDrawn_ckWritten (s : State) : (rngDrawn s).ckWritten = s.ckWritten := rfl
@[simp] theorem rngDrawn_ikWritten (s : State) : (rngDrawn s).ikWritten = s.ikWritten := rfl
@[simp] theorem rngDrawn_seq (s : State) : (rngDrawn s).seq = s.seq := rfl
@[simp] theorem rngDrawn_inBuf (s : State) : (rngDrawn s).inBuf = s.inBuf := rfl
@[simp] theorem rngDrawn_outBuf (s : State) : (rngDrawn s).outBuf = s.outBuf := rfl
@[simp] theorem rngDrawn_bufSize (s : State) : (rngDrawn s).bufSize = s.bufSize := rfl
@[simp] theorem rngDrawn_freeCount (s : State) : (rngDrawn s).freeCount = s.freeCount := rfl
@[simp] theorem rngDrawn_rngAnswers (s : State) : (rngDrawn s).rngAnswers = s.rngAnswers.drop 1 := rfl
@[simp] theorem rngDrawn_rngCount (s : State) : (rngDrawn s).rngCount = s.rngCount + 1 := rfl
@[simp] theorem rngDrawn_inputs (s : State) : (rngDrawn s).inputs = s.inputs := rfl
@[simp] theorem rngDrawn_response (s : State) : (rngDrawn s).response = s.response := rfl

/-! ## startCommand -/

@[simp] theorem startCommand_irqEn (v : Word) (s : State) : (startCommand v s).irqEn = s.irqEn := rfl
@[simp] theorem startCommand_strictPad (v : Word) (s : State) : (startCommand v s).strictPad = s.strictPad := rfl
@[simp] theorem startCommand_keyLock (v : Word) (s : State) : (startCommand v s).keyLock = s.keyLock := rfl
@[simp] theorem startCommand_cmd (v : Word) (s : State) : (startCommand v s).cmd = v := rfl
@[simp] theorem startCommand_done (v : Word) (s : State) : (startCommand v s).done = false := rfl
@[simp] theorem startCommand_werr (v : Word) (s : State) : (startCommand v s).werr = s.werr := rfl
@[simp] theorem startCommand_err (v : Word) (s : State) : (startCommand v s).err = .ok := rfl
@[simp] theorem startCommand_len (v : Word) (s : State) : (startCommand v s).len = s.len := rfl
@[simp] theorem startCommand_outLen (v : Word) (s : State) : (startCommand v s).outLen = 0 := rfl
@[simp] theorem startCommand_ckey (v : Word) (s : State) : (startCommand v s).ckey = s.ckey := rfl
@[simp] theorem startCommand_ikey (v : Word) (s : State) : (startCommand v s).ikey = s.ikey := rfl
@[simp] theorem startCommand_iv (v : Word) (s : State) : (startCommand v s).iv = s.iv := rfl
@[simp] theorem startCommand_ckWritten (v : Word) (s : State) : (startCommand v s).ckWritten = s.ckWritten := rfl
@[simp] theorem startCommand_ikWritten (v : Word) (s : State) : (startCommand v s).ikWritten = s.ikWritten := rfl
@[simp] theorem startCommand_seq (v : Word) (s : State) : (startCommand v s).seq = .busy := rfl
@[simp] theorem startCommand_inBuf (v : Word) (s : State) : (startCommand v s).inBuf = s.inBuf := rfl
@[simp] theorem startCommand_outBuf (v : Word) (s : State) : (startCommand v s).outBuf = s.outBuf := rfl
@[simp] theorem startCommand_bufSize (v : Word) (s : State) : (startCommand v s).bufSize = s.bufSize := rfl
@[simp] theorem startCommand_freeCount (v : Word) (s : State) : (startCommand v s).freeCount = s.freeCount := rfl
@[simp] theorem startCommand_rngAnswers (v : Word) (s : State) : (startCommand v s).rngAnswers = s.rngAnswers := rfl
@[simp] theorem startCommand_rngCount (v : Word) (s : State) : (startCommand v s).rngCount = s.rngCount := rfl
@[simp] theorem startCommand_inputs (v : Word) (s : State) : (startCommand v s).inputs = s.inputs := rfl
@[simp] theorem startCommand_response (v : Word) (s : State) : (startCommand v s).response = s.response := rfl

/-! ## finish -/

@[simp] theorem finish_irqEn (out : List Byte) (s : State) : (finish out s).irqEn = s.irqEn := rfl
@[simp] theorem finish_strictPad (out : List Byte) (s : State) : (finish out s).strictPad = s.strictPad := rfl
@[simp] theorem finish_keyLock (out : List Byte) (s : State) : (finish out s).keyLock = s.keyLock := rfl
@[simp] theorem finish_cmd (out : List Byte) (s : State) : (finish out s).cmd = s.cmd := rfl
@[simp] theorem finish_done (out : List Byte) (s : State) : (finish out s).done = true := rfl
@[simp] theorem finish_werr (out : List Byte) (s : State) : (finish out s).werr = s.werr := rfl
@[simp] theorem finish_err (out : List Byte) (s : State) : (finish out s).err = .ok := rfl
@[simp] theorem finish_len (out : List Byte) (s : State) : (finish out s).len = s.len := rfl
@[simp] theorem finish_outLen (out : List Byte) (s : State) : (finish out s).outLen = BitVec.ofNat 32 out.length := rfl
@[simp] theorem finish_ckey (out : List Byte) (s : State) : (finish out s).ckey = s.ckey := rfl
@[simp] theorem finish_ikey (out : List Byte) (s : State) : (finish out s).ikey = s.ikey := rfl
@[simp] theorem finish_iv (out : List Byte) (s : State) : (finish out s).iv = s.iv := rfl
@[simp] theorem finish_ckWritten (out : List Byte) (s : State) : (finish out s).ckWritten = s.ckWritten := rfl
@[simp] theorem finish_ikWritten (out : List Byte) (s : State) : (finish out s).ikWritten = s.ikWritten := rfl
@[simp] theorem finish_seq (out : List Byte) (s : State) : (finish out s).seq = .idle := rfl
@[simp] theorem finish_inBuf (out : List Byte) (s : State) : (finish out s).inBuf = s.inBuf := rfl
@[simp] theorem finish_outBuf (out : List Byte) (s : State) : (finish out s).outBuf = Memory.ofOutput out := rfl
@[simp] theorem finish_bufSize (out : List Byte) (s : State) : (finish out s).bufSize = s.bufSize := rfl
@[simp] theorem finish_freeCount (out : List Byte) (s : State) : (finish out s).freeCount = s.freeCount := rfl
@[simp] theorem finish_rngAnswers (out : List Byte) (s : State) : (finish out s).rngAnswers = s.rngAnswers := rfl
@[simp] theorem finish_rngCount (out : List Byte) (s : State) : (finish out s).rngCount = s.rngCount := rfl
@[simp] theorem finish_inputs (out : List Byte) (s : State) : (finish out s).inputs = s.inputs := rfl
@[simp] theorem finish_response (out : List Byte) (s : State) : (finish out s).response = s.response := rfl

/-! ## raiseError -/

@[simp] theorem raiseError_irqEn (e : ErrCode) (s : State) : (raiseError e s).irqEn = s.irqEn := rfl
@[simp] theorem raiseError_strictPad (e : ErrCode) (s : State) : (raiseError e s).strictPad = s.strictPad := rfl
@[simp] theorem raiseError_keyLock (e : ErrCode) (s : State) : (raiseError e s).keyLock = s.keyLock := rfl
@[simp] theorem raiseError_cmd (e : ErrCode) (s : State) : (raiseError e s).cmd = s.cmd := rfl
@[simp] theorem raiseError_done (e : ErrCode) (s : State) : (raiseError e s).done = true := rfl
@[simp] theorem raiseError_werr (e : ErrCode) (s : State) : (raiseError e s).werr = s.werr := rfl
@[simp] theorem raiseError_err (e : ErrCode) (s : State) : (raiseError e s).err = e := rfl
@[simp] theorem raiseError_len (e : ErrCode) (s : State) : (raiseError e s).len = s.len := rfl
@[simp] theorem raiseError_outLen (e : ErrCode) (s : State) : (raiseError e s).outLen = 0 := rfl
@[simp] theorem raiseError_ckey (e : ErrCode) (s : State) : (raiseError e s).ckey = s.ckey := rfl
@[simp] theorem raiseError_ikey (e : ErrCode) (s : State) : (raiseError e s).ikey = s.ikey := rfl
@[simp] theorem raiseError_iv (e : ErrCode) (s : State) : (raiseError e s).iv = s.iv := rfl
@[simp] theorem raiseError_ckWritten (e : ErrCode) (s : State) : (raiseError e s).ckWritten = s.ckWritten := rfl
@[simp] theorem raiseError_ikWritten (e : ErrCode) (s : State) : (raiseError e s).ikWritten = s.ikWritten := rfl
@[simp] theorem raiseError_seq (e : ErrCode) (s : State) : (raiseError e s).seq = .idle := rfl
@[simp] theorem raiseError_inBuf (e : ErrCode) (s : State) : (raiseError e s).inBuf = s.inBuf := rfl
@[simp] theorem raiseError_outBuf (e : ErrCode) (s : State) : (raiseError e s).outBuf = Memory.ofOutput [] := rfl
@[simp] theorem raiseError_bufSize (e : ErrCode) (s : State) : (raiseError e s).bufSize = s.bufSize := rfl
@[simp] theorem raiseError_freeCount (e : ErrCode) (s : State) : (raiseError e s).freeCount = s.freeCount := rfl
@[simp] theorem raiseError_rngAnswers (e : ErrCode) (s : State) : (raiseError e s).rngAnswers = s.rngAnswers := rfl
@[simp] theorem raiseError_rngCount (e : ErrCode) (s : State) : (raiseError e s).rngCount = s.rngCount := rfl
@[simp] theorem raiseError_inputs (e : ErrCode) (s : State) : (raiseError e s).inputs = s.inputs := rfl
@[simp] theorem raiseError_response (e : ErrCode) (s : State) : (raiseError e s).response = s.response := rfl

/-! ## writeStatus -/

@[simp] theorem writeStatus_irqEn (v : Word) (s : State) : (writeStatus v s).irqEn = s.irqEn := rfl
@[simp] theorem writeStatus_strictPad (v : Word) (s : State) : (writeStatus v s).strictPad = s.strictPad := rfl
@[simp] theorem writeStatus_keyLock (v : Word) (s : State) : (writeStatus v s).keyLock = s.keyLock := rfl
@[simp] theorem writeStatus_cmd (v : Word) (s : State) : (writeStatus v s).cmd = s.cmd := rfl
@[simp] theorem writeStatus_done (v : Word) (s : State) : (writeStatus v s).done = (s.done && !v.getLsbD 1) := rfl
@[simp] theorem writeStatus_werr (v : Word) (s : State) : (writeStatus v s).werr = (s.werr && !v.getLsbD 2) := rfl
@[simp] theorem writeStatus_err (v : Word) (s : State) : (writeStatus v s).err = s.err := rfl
@[simp] theorem writeStatus_len (v : Word) (s : State) : (writeStatus v s).len = s.len := rfl
@[simp] theorem writeStatus_outLen (v : Word) (s : State) : (writeStatus v s).outLen = s.outLen := rfl
@[simp] theorem writeStatus_ckey (v : Word) (s : State) : (writeStatus v s).ckey = s.ckey := rfl
@[simp] theorem writeStatus_ikey (v : Word) (s : State) : (writeStatus v s).ikey = s.ikey := rfl
@[simp] theorem writeStatus_iv (v : Word) (s : State) : (writeStatus v s).iv = s.iv := rfl
@[simp] theorem writeStatus_ckWritten (v : Word) (s : State) : (writeStatus v s).ckWritten = s.ckWritten := rfl
@[simp] theorem writeStatus_ikWritten (v : Word) (s : State) : (writeStatus v s).ikWritten = s.ikWritten := rfl
@[simp] theorem writeStatus_seq (v : Word) (s : State) : (writeStatus v s).seq = s.seq := rfl
@[simp] theorem writeStatus_inBuf (v : Word) (s : State) : (writeStatus v s).inBuf = s.inBuf := rfl
@[simp] theorem writeStatus_outBuf (v : Word) (s : State) : (writeStatus v s).outBuf = s.outBuf := rfl
@[simp] theorem writeStatus_bufSize (v : Word) (s : State) : (writeStatus v s).bufSize = s.bufSize := rfl
@[simp] theorem writeStatus_freeCount (v : Word) (s : State) : (writeStatus v s).freeCount = s.freeCount := rfl
@[simp] theorem writeStatus_rngAnswers (v : Word) (s : State) : (writeStatus v s).rngAnswers = s.rngAnswers := rfl
@[simp] theorem writeStatus_rngCount (v : Word) (s : State) : (writeStatus v s).rngCount = s.rngCount := rfl
@[simp] theorem writeStatus_inputs (v : Word) (s : State) : (writeStatus v s).inputs = s.inputs := rfl
@[simp] theorem writeStatus_response (v : Word) (s : State) : (writeStatus v s).response = s.response := rfl

/-! ## writeCtrl -/

@[simp] theorem writeCtrl_irqEn (v : Word) (s : State) : (writeCtrl v s).irqEn = v.getLsbD 0 := rfl
@[simp] theorem writeCtrl_strictPad (v : Word) (s : State) : (writeCtrl v s).strictPad = v.getLsbD 1 := rfl
@[simp] theorem writeCtrl_keyLock (v : Word) (s : State) : (writeCtrl v s).keyLock = (s.keyLock || v.getLsbD 2) := rfl
@[simp] theorem writeCtrl_cmd (v : Word) (s : State) : (writeCtrl v s).cmd = s.cmd := rfl
@[simp] theorem writeCtrl_done (v : Word) (s : State) : (writeCtrl v s).done = s.done := rfl
@[simp] theorem writeCtrl_werr (v : Word) (s : State) : (writeCtrl v s).werr = s.werr := rfl
@[simp] theorem writeCtrl_err (v : Word) (s : State) : (writeCtrl v s).err = s.err := rfl
@[simp] theorem writeCtrl_len (v : Word) (s : State) : (writeCtrl v s).len = s.len := rfl
@[simp] theorem writeCtrl_outLen (v : Word) (s : State) : (writeCtrl v s).outLen = s.outLen := rfl
@[simp] theorem writeCtrl_ckey (v : Word) (s : State) : (writeCtrl v s).ckey = s.ckey := rfl
@[simp] theorem writeCtrl_ikey (v : Word) (s : State) : (writeCtrl v s).ikey = s.ikey := rfl
@[simp] theorem writeCtrl_iv (v : Word) (s : State) : (writeCtrl v s).iv = s.iv := rfl
@[simp] theorem writeCtrl_ckWritten (v : Word) (s : State) : (writeCtrl v s).ckWritten = s.ckWritten := rfl
@[simp] theorem writeCtrl_ikWritten (v : Word) (s : State) : (writeCtrl v s).ikWritten = s.ikWritten := rfl
@[simp] theorem writeCtrl_seq (v : Word) (s : State) : (writeCtrl v s).seq = s.seq := rfl
@[simp] theorem writeCtrl_inBuf (v : Word) (s : State) : (writeCtrl v s).inBuf = s.inBuf := rfl
@[simp] theorem writeCtrl_outBuf (v : Word) (s : State) : (writeCtrl v s).outBuf = s.outBuf := rfl
@[simp] theorem writeCtrl_bufSize (v : Word) (s : State) : (writeCtrl v s).bufSize = s.bufSize := rfl
@[simp] theorem writeCtrl_freeCount (v : Word) (s : State) : (writeCtrl v s).freeCount = s.freeCount := rfl
@[simp] theorem writeCtrl_rngAnswers (v : Word) (s : State) : (writeCtrl v s).rngAnswers = s.rngAnswers := rfl
@[simp] theorem writeCtrl_rngCount (v : Word) (s : State) : (writeCtrl v s).rngCount = s.rngCount := rfl
@[simp] theorem writeCtrl_inputs (v : Word) (s : State) : (writeCtrl v s).inputs = s.inputs := rfl
@[simp] theorem writeCtrl_response (v : Word) (s : State) : (writeCtrl v s).response = s.response := rfl

/-! ## writeCkey -/

@[simp] theorem writeCkey_irqEn (i : Fin 4) (v : Word) (s : State) : (writeCkey i v s).irqEn = s.irqEn := rfl
@[simp] theorem writeCkey_strictPad (i : Fin 4) (v : Word) (s : State) : (writeCkey i v s).strictPad = s.strictPad := rfl
@[simp] theorem writeCkey_keyLock (i : Fin 4) (v : Word) (s : State) : (writeCkey i v s).keyLock = s.keyLock := rfl
@[simp] theorem writeCkey_cmd (i : Fin 4) (v : Word) (s : State) : (writeCkey i v s).cmd = s.cmd := rfl
@[simp] theorem writeCkey_done (i : Fin 4) (v : Word) (s : State) : (writeCkey i v s).done = s.done := rfl
@[simp] theorem writeCkey_werr (i : Fin 4) (v : Word) (s : State) : (writeCkey i v s).werr = s.werr := rfl
@[simp] theorem writeCkey_err (i : Fin 4) (v : Word) (s : State) : (writeCkey i v s).err = s.err := rfl
@[simp] theorem writeCkey_len (i : Fin 4) (v : Word) (s : State) : (writeCkey i v s).len = s.len := rfl
@[simp] theorem writeCkey_outLen (i : Fin 4) (v : Word) (s : State) : (writeCkey i v s).outLen = s.outLen := rfl
@[simp] theorem writeCkey_ckey (i : Fin 4) (v : Word) (s : State) : (writeCkey i v s).ckey = s.ckey.set i v := rfl
@[simp] theorem writeCkey_ikey (i : Fin 4) (v : Word) (s : State) : (writeCkey i v s).ikey = s.ikey := rfl
@[simp] theorem writeCkey_iv (i : Fin 4) (v : Word) (s : State) : (writeCkey i v s).iv = s.iv := rfl
@[simp] theorem writeCkey_ckWritten (i : Fin 4) (v : Word) (s : State) : (writeCkey i v s).ckWritten = s.ckWritten ||| (1#4 <<< i.val) := rfl
@[simp] theorem writeCkey_ikWritten (i : Fin 4) (v : Word) (s : State) : (writeCkey i v s).ikWritten = s.ikWritten := rfl
@[simp] theorem writeCkey_seq (i : Fin 4) (v : Word) (s : State) : (writeCkey i v s).seq = s.seq := rfl
@[simp] theorem writeCkey_inBuf (i : Fin 4) (v : Word) (s : State) : (writeCkey i v s).inBuf = s.inBuf := rfl
@[simp] theorem writeCkey_outBuf (i : Fin 4) (v : Word) (s : State) : (writeCkey i v s).outBuf = s.outBuf := rfl
@[simp] theorem writeCkey_bufSize (i : Fin 4) (v : Word) (s : State) : (writeCkey i v s).bufSize = s.bufSize := rfl
@[simp] theorem writeCkey_freeCount (i : Fin 4) (v : Word) (s : State) : (writeCkey i v s).freeCount = s.freeCount := rfl
@[simp] theorem writeCkey_rngAnswers (i : Fin 4) (v : Word) (s : State) : (writeCkey i v s).rngAnswers = s.rngAnswers := rfl
@[simp] theorem writeCkey_rngCount (i : Fin 4) (v : Word) (s : State) : (writeCkey i v s).rngCount = s.rngCount := rfl
@[simp] theorem writeCkey_inputs (i : Fin 4) (v : Word) (s : State) : (writeCkey i v s).inputs = s.inputs := rfl
@[simp] theorem writeCkey_response (i : Fin 4) (v : Word) (s : State) : (writeCkey i v s).response = s.response := rfl

/-! ## writeIkey -/

@[simp] theorem writeIkey_irqEn (i : Fin 8) (v : Word) (s : State) : (writeIkey i v s).irqEn = s.irqEn := rfl
@[simp] theorem writeIkey_strictPad (i : Fin 8) (v : Word) (s : State) : (writeIkey i v s).strictPad = s.strictPad := rfl
@[simp] theorem writeIkey_keyLock (i : Fin 8) (v : Word) (s : State) : (writeIkey i v s).keyLock = s.keyLock := rfl
@[simp] theorem writeIkey_cmd (i : Fin 8) (v : Word) (s : State) : (writeIkey i v s).cmd = s.cmd := rfl
@[simp] theorem writeIkey_done (i : Fin 8) (v : Word) (s : State) : (writeIkey i v s).done = s.done := rfl
@[simp] theorem writeIkey_werr (i : Fin 8) (v : Word) (s : State) : (writeIkey i v s).werr = s.werr := rfl
@[simp] theorem writeIkey_err (i : Fin 8) (v : Word) (s : State) : (writeIkey i v s).err = s.err := rfl
@[simp] theorem writeIkey_len (i : Fin 8) (v : Word) (s : State) : (writeIkey i v s).len = s.len := rfl
@[simp] theorem writeIkey_outLen (i : Fin 8) (v : Word) (s : State) : (writeIkey i v s).outLen = s.outLen := rfl
@[simp] theorem writeIkey_ckey (i : Fin 8) (v : Word) (s : State) : (writeIkey i v s).ckey = s.ckey := rfl
@[simp] theorem writeIkey_ikey (i : Fin 8) (v : Word) (s : State) : (writeIkey i v s).ikey = s.ikey.set i v := rfl
@[simp] theorem writeIkey_iv (i : Fin 8) (v : Word) (s : State) : (writeIkey i v s).iv = s.iv := rfl
@[simp] theorem writeIkey_ckWritten (i : Fin 8) (v : Word) (s : State) : (writeIkey i v s).ckWritten = s.ckWritten := rfl
@[simp] theorem writeIkey_ikWritten (i : Fin 8) (v : Word) (s : State) : (writeIkey i v s).ikWritten = s.ikWritten ||| (1#8 <<< i.val) := rfl
@[simp] theorem writeIkey_seq (i : Fin 8) (v : Word) (s : State) : (writeIkey i v s).seq = s.seq := rfl
@[simp] theorem writeIkey_inBuf (i : Fin 8) (v : Word) (s : State) : (writeIkey i v s).inBuf = s.inBuf := rfl
@[simp] theorem writeIkey_outBuf (i : Fin 8) (v : Word) (s : State) : (writeIkey i v s).outBuf = s.outBuf := rfl
@[simp] theorem writeIkey_bufSize (i : Fin 8) (v : Word) (s : State) : (writeIkey i v s).bufSize = s.bufSize := rfl
@[simp] theorem writeIkey_freeCount (i : Fin 8) (v : Word) (s : State) : (writeIkey i v s).freeCount = s.freeCount := rfl
@[simp] theorem writeIkey_rngAnswers (i : Fin 8) (v : Word) (s : State) : (writeIkey i v s).rngAnswers = s.rngAnswers := rfl
@[simp] theorem writeIkey_rngCount (i : Fin 8) (v : Word) (s : State) : (writeIkey i v s).rngCount = s.rngCount := rfl
@[simp] theorem writeIkey_inputs (i : Fin 8) (v : Word) (s : State) : (writeIkey i v s).inputs = s.inputs := rfl
@[simp] theorem writeIkey_response (i : Fin 8) (v : Word) (s : State) : (writeIkey i v s).response = s.response := rfl

/-! ## writeIv -/

@[simp] theorem writeIv_irqEn (i : Fin 4) (v : Word) (s : State) : (writeIv i v s).irqEn = s.irqEn := rfl
@[simp] theorem writeIv_strictPad (i : Fin 4) (v : Word) (s : State) : (writeIv i v s).strictPad = s.strictPad := rfl
@[simp] theorem writeIv_keyLock (i : Fin 4) (v : Word) (s : State) : (writeIv i v s).keyLock = s.keyLock := rfl
@[simp] theorem writeIv_cmd (i : Fin 4) (v : Word) (s : State) : (writeIv i v s).cmd = s.cmd := rfl
@[simp] theorem writeIv_done (i : Fin 4) (v : Word) (s : State) : (writeIv i v s).done = s.done := rfl
@[simp] theorem writeIv_werr (i : Fin 4) (v : Word) (s : State) : (writeIv i v s).werr = s.werr := rfl
@[simp] theorem writeIv_err (i : Fin 4) (v : Word) (s : State) : (writeIv i v s).err = s.err := rfl
@[simp] theorem writeIv_len (i : Fin 4) (v : Word) (s : State) : (writeIv i v s).len = s.len := rfl
@[simp] theorem writeIv_outLen (i : Fin 4) (v : Word) (s : State) : (writeIv i v s).outLen = s.outLen := rfl
@[simp] theorem writeIv_ckey (i : Fin 4) (v : Word) (s : State) : (writeIv i v s).ckey = s.ckey := rfl
@[simp] theorem writeIv_ikey (i : Fin 4) (v : Word) (s : State) : (writeIv i v s).ikey = s.ikey := rfl
@[simp] theorem writeIv_iv (i : Fin 4) (v : Word) (s : State) : (writeIv i v s).iv = s.iv.set i v := rfl
@[simp] theorem writeIv_ckWritten (i : Fin 4) (v : Word) (s : State) : (writeIv i v s).ckWritten = s.ckWritten := rfl
@[simp] theorem writeIv_ikWritten (i : Fin 4) (v : Word) (s : State) : (writeIv i v s).ikWritten = s.ikWritten := rfl
@[simp] theorem writeIv_seq (i : Fin 4) (v : Word) (s : State) : (writeIv i v s).seq = s.seq := rfl
@[simp] theorem writeIv_inBuf (i : Fin 4) (v : Word) (s : State) : (writeIv i v s).inBuf = s.inBuf := rfl
@[simp] theorem writeIv_outBuf (i : Fin 4) (v : Word) (s : State) : (writeIv i v s).outBuf = s.outBuf := rfl
@[simp] theorem writeIv_bufSize (i : Fin 4) (v : Word) (s : State) : (writeIv i v s).bufSize = s.bufSize := rfl
@[simp] theorem writeIv_freeCount (i : Fin 4) (v : Word) (s : State) : (writeIv i v s).freeCount = s.freeCount := rfl
@[simp] theorem writeIv_rngAnswers (i : Fin 4) (v : Word) (s : State) : (writeIv i v s).rngAnswers = s.rngAnswers := rfl
@[simp] theorem writeIv_rngCount (i : Fin 4) (v : Word) (s : State) : (writeIv i v s).rngCount = s.rngCount := rfl
@[simp] theorem writeIv_inputs (i : Fin 4) (v : Word) (s : State) : (writeIv i v s).inputs = s.inputs := rfl
@[simp] theorem writeIv_response (i : Fin 4) (v : Word) (s : State) : (writeIv i v s).response = s.response := rfl

/-! ## resetLine -/

@[simp] theorem resetLine_irqEn (s : State) : (resetLine s).irqEn = State.reset.irqEn := rfl
@[simp] theorem resetLine_strictPad (s : State) : (resetLine s).strictPad = State.reset.strictPad := rfl
@[simp] theorem resetLine_keyLock (s : State) : (resetLine s).keyLock = State.reset.keyLock := rfl
@[simp] theorem resetLine_cmd (s : State) : (resetLine s).cmd = State.reset.cmd := rfl
@[simp] theorem resetLine_done (s : State) : (resetLine s).done = State.reset.done := rfl
@[simp] theorem resetLine_werr (s : State) : (resetLine s).werr = State.reset.werr := rfl
@[simp] theorem resetLine_err (s : State) : (resetLine s).err = State.reset.err := rfl
@[simp] theorem resetLine_len (s : State) : (resetLine s).len = State.reset.len := rfl
@[simp] theorem resetLine_outLen (s : State) : (resetLine s).outLen = State.reset.outLen := rfl
@[simp] theorem resetLine_ckey (s : State) : (resetLine s).ckey = State.reset.ckey := rfl
@[simp] theorem resetLine_ikey (s : State) : (resetLine s).ikey = State.reset.ikey := rfl
@[simp] theorem resetLine_iv (s : State) : (resetLine s).iv = State.reset.iv := rfl
@[simp] theorem resetLine_ckWritten (s : State) : (resetLine s).ckWritten = State.reset.ckWritten := rfl
@[simp] theorem resetLine_ikWritten (s : State) : (resetLine s).ikWritten = State.reset.ikWritten := rfl
@[simp] theorem resetLine_seq (s : State) : (resetLine s).seq = State.reset.seq := rfl
@[simp] theorem resetLine_inBuf (s : State) : (resetLine s).inBuf = State.reset.inBuf := rfl
@[simp] theorem resetLine_outBuf (s : State) : (resetLine s).outBuf = State.reset.outBuf := rfl
@[simp] theorem resetLine_bufSize (s : State) : (resetLine s).bufSize = s.bufSize := rfl
@[simp] theorem resetLine_freeCount (s : State) : (resetLine s).freeCount = s.freeCount := rfl
@[simp] theorem resetLine_rngAnswers (s : State) : (resetLine s).rngAnswers = s.rngAnswers := rfl
@[simp] theorem resetLine_rngCount (s : State) : (resetLine s).rngCount = s.rngCount := rfl
@[simp] theorem resetLine_inputs (s : State) : (resetLine s).inputs = s.inputs := rfl
@[simp] theorem resetLine_response (s : State) : (resetLine s).response = s.response := rfl

/-! ## readBufWord -/

@[simp] theorem readBufWord_irqEn (m : Memory) (k : Nat) (s : State) : (readBufWord m k s).2.irqEn = s.irqEn := rfl
@[simp] theorem readBufWord_strictPad (m : Memory) (k : Nat) (s : State) : (readBufWord m k s).2.strictPad = s.strictPad := rfl
@[simp] theorem readBufWord_keyLock (m : Memory) (k : Nat) (s : State) : (readBufWord m k s).2.keyLock = s.keyLock := rfl
@[simp] theorem readBufWord_cmd (m : Memory) (k : Nat) (s : State) : (readBufWord m k s).2.cmd = s.cmd := rfl
@[simp] theorem readBufWord_done (m : Memory) (k : Nat) (s : State) : (readBufWord m k s).2.done = s.done := rfl
@[simp] theorem readBufWord_werr (m : Memory) (k : Nat) (s : State) : (readBufWord m k s).2.werr = s.werr := rfl
@[simp] theorem readBufWord_err (m : Memory) (k : Nat) (s : State) : (readBufWord m k s).2.err = s.err := rfl
@[simp] theorem readBufWord_len (m : Memory) (k : Nat) (s : State) : (readBufWord m k s).2.len = s.len := rfl
@[simp] theorem readBufWord_outLen (m : Memory) (k : Nat) (s : State) : (readBufWord m k s).2.outLen = s.outLen := rfl
@[simp] theorem readBufWord_ckey (m : Memory) (k : Nat) (s : State) : (readBufWord m k s).2.ckey = s.ckey := rfl
@[simp] theorem readBufWord_ikey (m : Memory) (k : Nat) (s : State) : (readBufWord m k s).2.ikey = s.ikey := rfl
@[simp] theorem readBufWord_iv (m : Memory) (k : Nat) (s : State) : (readBufWord m k s).2.iv = s.iv := rfl
@[simp] theorem readBufWord_ckWritten (m : Memory) (k : Nat) (s : State) : (readBufWord m k s).2.ckWritten = s.ckWritten := rfl
@[simp] theorem readBufWord_ikWritten (m : Memory) (k : Nat) (s : State) : (readBufWord m k s).2.ikWritten = s.ikWritten := rfl
@[simp] theorem readBufWord_seq (m : Memory) (k : Nat) (s : State) : (readBufWord m k s).2.seq = s.seq := rfl
@[simp] theorem readBufWord_inBuf (m : Memory) (k : Nat) (s : State) : (readBufWord m k s).2.inBuf = s.inBuf := rfl
@[simp] theorem readBufWord_outBuf (m : Memory) (k : Nat) (s : State) : (readBufWord m k s).2.outBuf = s.outBuf := rfl
@[simp] theorem readBufWord_bufSize (m : Memory) (k : Nat) (s : State) : (readBufWord m k s).2.bufSize = s.bufSize := rfl
@[simp] theorem readBufWord_freeCount (m : Memory) (k : Nat) (s : State) : (readBufWord m k s).2.freeCount = (m.readBytes (4 * k) 4 s.freeCount).2 := rfl
@[simp] theorem readBufWord_rngAnswers (m : Memory) (k : Nat) (s : State) : (readBufWord m k s).2.rngAnswers = s.rngAnswers := rfl
@[simp] theorem readBufWord_rngCount (m : Memory) (k : Nat) (s : State) : (readBufWord m k s).2.rngCount = s.rngCount := rfl
@[simp] theorem readBufWord_inputs (m : Memory) (k : Nat) (s : State) : (readBufWord m k s).2.inputs = s.inputs := rfl
@[simp] theorem readBufWord_response (m : Memory) (k : Nat) (s : State) : (readBufWord m k s).2.response = s.response := rfl

/-! ## freeWord -/

@[simp] theorem freeWord_irqEn (s : State) : (freeWord s).2.irqEn = s.irqEn := rfl
@[simp] theorem freeWord_strictPad (s : State) : (freeWord s).2.strictPad = s.strictPad := rfl
@[simp] theorem freeWord_keyLock (s : State) : (freeWord s).2.keyLock = s.keyLock := rfl
@[simp] theorem freeWord_cmd (s : State) : (freeWord s).2.cmd = s.cmd := rfl
@[simp] theorem freeWord_done (s : State) : (freeWord s).2.done = s.done := rfl
@[simp] theorem freeWord_werr (s : State) : (freeWord s).2.werr = s.werr := rfl
@[simp] theorem freeWord_err (s : State) : (freeWord s).2.err = s.err := rfl
@[simp] theorem freeWord_len (s : State) : (freeWord s).2.len = s.len := rfl
@[simp] theorem freeWord_outLen (s : State) : (freeWord s).2.outLen = s.outLen := rfl
@[simp] theorem freeWord_ckey (s : State) : (freeWord s).2.ckey = s.ckey := rfl
@[simp] theorem freeWord_ikey (s : State) : (freeWord s).2.ikey = s.ikey := rfl
@[simp] theorem freeWord_iv (s : State) : (freeWord s).2.iv = s.iv := rfl
@[simp] theorem freeWord_ckWritten (s : State) : (freeWord s).2.ckWritten = s.ckWritten := rfl
@[simp] theorem freeWord_ikWritten (s : State) : (freeWord s).2.ikWritten = s.ikWritten := rfl
@[simp] theorem freeWord_seq (s : State) : (freeWord s).2.seq = s.seq := rfl
@[simp] theorem freeWord_inBuf (s : State) : (freeWord s).2.inBuf = s.inBuf := rfl
@[simp] theorem freeWord_outBuf (s : State) : (freeWord s).2.outBuf = s.outBuf := rfl
@[simp] theorem freeWord_bufSize (s : State) : (freeWord s).2.bufSize = s.bufSize := rfl
@[simp] theorem freeWord_freeCount (s : State) : (freeWord s).2.freeCount = s.freeCount + 4 := rfl
@[simp] theorem freeWord_rngAnswers (s : State) : (freeWord s).2.rngAnswers = s.rngAnswers := rfl
@[simp] theorem freeWord_rngCount (s : State) : (freeWord s).2.rngCount = s.rngCount := rfl
@[simp] theorem freeWord_inputs (s : State) : (freeWord s).2.inputs = s.inputs := rfl
@[simp] theorem freeWord_response (s : State) : (freeWord s).2.response = s.response := rfl

end Sys2Proof.Machine
end

