-- ==== Sys2Proof/Laws/Memory.lean ====
section
/-! SUPPORT. The laws of a buffer: read after write, and that every buffer operation keeps the canonical form and the bound. -/

namespace Sys2Proof.Machine

/-! ## Cells in rising order -/

theorem cellsRising_tail {c : Host.Cell} {l : List Host.Cell} (h : cellsRising (c :: l) = true) :
    cellsRising l = true := by
  cases l with
  | nil => rfl
  | cons d l => simp only [cellsRising, Bool.and_eq_true] at h; exact h.2

theorem cellsRising_head_lt {l : List Host.Cell} :
    ∀ {c : Host.Cell}, cellsRising (c :: l) = true → ∀ d ∈ l, c.1 < d.1 := by
  induction l with
  | nil => intro c _ d hd; cases hd
  | cons e l ih =>
    intro c h d hd
    simp only [cellsRising, Bool.and_eq_true, decide_eq_true_eq] at h
    rcases List.mem_cons.mp hd with rfl | hd
    · exact h.1
    · exact Nat.lt_trans h.1 (ih h.2 d hd)

theorem cellsRising_cons {c : Host.Cell} {l : List Host.Cell} (hl : cellsRising l = true)
    (hc : ∀ d ∈ l, c.1 < d.1) : cellsRising (c :: l) = true := by
  cases l with
  | nil => rfl
  | cons d l => simp only [cellsRising, Bool.and_eq_true, decide_eq_true_eq]; exact ⟨hc d (by simp), hl⟩

theorem lookupCell_none {l : List Host.Cell} {a : Nat} (h : ∀ d ∈ l, a < d.1) : lookupCell l a = none := by
  induction l with
  | nil => rfl
  | cons c l ih =>
    obtain ⟨k, x⟩ := c
    have hk : a < k := h (k, x) (by simp)
    simp only [lookupCell, if_neg (Nat.ne_of_lt hk)]
    exact ih fun d hd => h d (by simp [hd])

theorem mem_insertCell {fill : Option Byte} {l : List Host.Cell} {a : Nat} {b : Byte} {d : Host.Cell}
    (h : d ∈ insertCell fill l a b) : d ∈ l ∨ (d = (a, b) ∧ some b ≠ fill) := by
  induction l with
  | nil =>
    simp only [insertCell] at h
    split at h
    · cases h
    · rename_i hb; exact .inr ⟨by simpa using h, hb⟩
  | cons c l ih =>
    obtain ⟨k, x⟩ := c
    simp only [insertCell] at h
    split at h
    · split at h
      · exact .inl h
      · rename_i hb
        rcases List.mem_cons.mp h with rfl | h
        · exact .inr ⟨rfl, hb⟩
        · exact .inl h
    · split at h
      · split at h
        · exact .inl (by simp [h])
        · rename_i hb
          rcases List.mem_cons.mp h with rfl | h
          · exact .inr ⟨rfl, hb⟩
          · exact .inl (by simp [h])
      · rcases List.mem_cons.mp h with rfl | h
        · exact .inl (by simp)
        · rcases ih h with h | h
          · exact .inl (by simp [h])
          · exact .inr h

theorem cellsRising_insertCell {fill : Option Byte} {l : List Host.Cell} (a : Nat) (b : Byte)
    (hl : cellsRising l = true) : cellsRising (insertCell fill l a b) = true := by
  induction l with
  | nil => simp only [insertCell]; split <;> rfl
  | cons c l ih =>
    obtain ⟨k, x⟩ := c
    have ht := cellsRising_tail hl
    have hlt := cellsRising_head_lt hl
    simp only [insertCell]
    split
    · rename_i hak
      split
      · exact hl
      · refine cellsRising_cons hl fun d hd => ?_
        rcases List.mem_cons.mp hd with rfl | hd
        · exact hak
        · exact Nat.lt_trans hak (hlt d hd)
    · rename_i hak
      split
      · rename_i heq
        split
        · exact ht
        · exact cellsRising_cons ht fun d hd => by simpa [heq] using hlt d hd
      · rename_i hne
        refine cellsRising_cons (ih ht) fun d hd => ?_
        rcases mem_insertCell hd with hd | ⟨rfl, _⟩
        · exact hlt d hd
        · show k < a
          omega

/-! ## Read after write -/

theorem lookupCell_insertCell_of_ne {fill : Option Byte} {l : List Host.Cell} {a a' : Nat} (b : Byte) (h : a' ≠ a) :
    lookupCell (insertCell fill l a b) a' = lookupCell l a' := by
  induction l with
  | nil => simp only [insertCell]; split <;> simp [lookupCell, h]
  | cons c l ih =>
    obtain ⟨k, x⟩ := c
    simp only [insertCell]
    split
    · split
      · rfl
      · simp [lookupCell, h]
    · split
      · rename_i heq
        subst heq
        split <;> simp [lookupCell, h]
      · simp only [lookupCell, ih]

theorem lookupCell_insertCell_self {fill : Option Byte} {l : List Host.Cell} (a : Nat) (b : Byte)
    (hl : cellsRising l = true) :
    lookupCell (insertCell fill l a b) a = if some b = fill then none else some b := by
  induction l with
  | nil => simp only [insertCell]; split <;> simp [lookupCell]
  | cons c l ih =>
    obtain ⟨k, x⟩ := c
    have hlt := cellsRising_head_lt hl
    simp only [insertCell]
    split
    · rename_i hak
      split
      · refine lookupCell_none fun d hd => ?_
        rcases List.mem_cons.mp hd with rfl | hd
        · exact hak
        · exact Nat.lt_trans hak (hlt d hd)
      · simp [lookupCell]
    · split
      · rename_i heq
        subst heq
        split
        · exact lookupCell_none hlt
        · simp [lookupCell]
      · rename_i hne
        simp only [lookupCell, if_neg hne]
        exact ih (cellsRising_tail hl)

@[simp] theorem Memory.set_fill (m : Memory) (a : Nat) (b : Byte) : (m.set a b).fill = m.fill := rfl
@[simp] theorem Memory.setWord_fill (m : Memory) (k : Nat) (v : Word) : (m.setWord k v).fill = m.fill := rfl

theorem Memory.wf_rising {m : Memory} (h : m.wf = true) : cellsRising m.cells = true := by
  simp only [Memory.wf, Bool.and_eq_true] at h; exact h.1

/-- A byte written reads back. -/
theorem Memory.get_set_self {m : Memory} (h : m.wf = true) (a : Nat) (b : Byte) : (m.set a b).get a = some b := by
  simp only [Memory.get, Memory.set, Memory.unlisted, lookupCell_insertCell_self a b (Memory.wf_rising h)]
  split <;> rename_i h' <;> split at h' <;> simp_all

/-- A byte write leaves every other byte alone. -/
theorem Memory.get_set_of_ne (m : Memory) {a a' : Nat} (b : Byte) (h : a' ≠ a) : (m.set a b).get a' = m.get a' := by
  simp only [Memory.get, Memory.set, Memory.unlisted, lookupCell_insertCell_of_ne b h]

/-! ## Canonical form and bound -/

theorem Memory.wf_set {m : Memory} (h : m.wf = true) (a : Nat) (b : Byte) : (m.set a b).wf = true := by
  simp only [Memory.wf, Bool.and_eq_true, List.all_eq_true, decide_eq_true_eq] at h ⊢
  refine ⟨cellsRising_insertCell a b h.1, fun d hd => ?_⟩
  rcases mem_insertCell hd with hd | ⟨rfl, hb⟩
  · exact h.2 d hd
  · exact hb

theorem Memory.below_set {m : Memory} {n a : Nat} (h : m.below n = true) (ha : a < n) (b : Byte) :
    (m.set a b).below n = true := by
  simp only [Memory.below, List.all_eq_true, decide_eq_true_eq] at h ⊢
  intro d hd
  rcases mem_insertCell hd with hd | ⟨rfl, _⟩
  · exact h d hd
  · exact ha

theorem Memory.wf_setWord {m : Memory} (h : m.wf = true) (k : Nat) (v : Word) : (m.setWord k v).wf = true :=
  Memory.wf_set (Memory.wf_set (Memory.wf_set (Memory.wf_set h _ _) _ _) _ _) _ _

theorem Memory.below_setWord {m : Memory} {n k : Nat} (h : m.below n = true) (hk : 4 * k + 3 < n) (v : Word) :
    (m.setWord k v).below n = true :=
  Memory.below_set (Memory.below_set (Memory.below_set (Memory.below_set h (by omega) _) (by omega) _) (by omega) _) hk _

/-! ## The buffer a completion leaves -/

theorem mem_nonzeroCells {d : Host.Cell} {out : List Byte} :
    ∀ {a : Nat}, d ∈ nonzeroCells a out → a ≤ d.1 ∧ d.1 < a + out.length ∧ d.2 ≠ 0 := by
  induction out with
  | nil => intro a h; cases h
  | cons b out ih =>
    intro a h
    simp only [nonzeroCells] at h
    simp only [List.length_cons]
    split at h
    · have := ih h; exact ⟨by omega, by omega, this.2.2⟩
    · rename_i hb
      rcases List.mem_cons.mp h with rfl | h
      · exact ⟨Nat.le_refl _, by show a < _; omega, hb⟩
      · have := ih h; exact ⟨by omega, by omega, this.2.2⟩

theorem cellsRising_nonzeroCells (out : List Byte) : ∀ a : Nat, cellsRising (nonzeroCells a out) = true := by
  induction out with
  | nil => intro a; rfl
  | cons b out ih =>
    intro a
    simp only [nonzeroCells]
    split
    · exact ih _
    · exact cellsRising_cons (ih _) fun d hd => (mem_nonzeroCells hd).1

theorem Memory.wf_ofOutput (out : List Byte) : (Memory.ofOutput out).wf = true := by
  simp only [Memory.wf, Memory.ofOutput, Memory.unlisted, Bool.and_eq_true, List.all_eq_true]
  exact ⟨cellsRising_nonzeroCells out 0, fun d hd =>
    decide_eq_true fun h => (mem_nonzeroCells hd).2.2 (Option.some.inj h)⟩

theorem Memory.below_ofOutput {out : List Byte} {n : Nat} (h : out.length ≤ n) : (Memory.ofOutput out).below n = true := by
  simp only [Memory.below, Memory.ofOutput, List.all_eq_true, decide_eq_true_eq]
  intro d hd
  have := (mem_nonzeroCells hd).2.1
  omega

@[simp] theorem Memory.ofOutput_fill (out : List Byte) : (Memory.ofOutput out).fill = some 0 := rfl

/-- The bytes of a completion's buffer: the output, then zeros; `byteAt` reads 0 past the end of a sequence. -/
theorem lookupCell_nonzeroCells (out : List Byte) :
    ∀ a i : Nat, (lookupCell (nonzeroCells a out) (a + i)).getD 0 = byteAt out i := by
  induction out with
  | nil => intro a i; simp [nonzeroCells, lookupCell, byteAt]
  | cons b out ih =>
    intro a i
    cases i with
    | zero =>
      simp only [nonzeroCells]
      split
      · rename_i hb
        have h0 : lookupCell (nonzeroCells (a + 1) out) a = none :=
          lookupCell_none fun d hd => (mem_nonzeroCells hd).1
        simp [h0, byteAt, hb]
      · simp [lookupCell, byteAt]
    | succ i =>
      have e : a + (i + 1) = a + 1 + i := by omega
      simp only [nonzeroCells, e]
      split
      · simpa [byteAt] using ih (a + 1) i
      · have hne : a + 1 + i ≠ a := by omega
        simpa [lookupCell, hne, byteAt] using ih (a + 1) i

theorem Memory.get_ofOutput (out : List Byte) (i : Nat) : (Memory.ofOutput out).get i = some (byteAt out i) := by
  have h := lookupCell_nonzeroCells out 0 i
  simp only [Nat.zero_add] at h
  simp only [Memory.get, Memory.ofOutput, Memory.unlisted]
  cases hc : lookupCell (nonzeroCells 0 out) i <;> rw [hc] at h <;> simpa using h

/-! ## Reading bytes -/

/-- Reading n bytes gives n bytes, whatever of them is specified. -/
theorem Memory.readBytes_length (m : Memory) : ∀ (a n f : Nat), (m.readBytes a n f).1.length = n := by
  intro a n
  induction n generalizing a with
  | zero => intro f; rfl
  | succ n ih => intro f; simp only [Memory.readBytes]; split <;> simp [ih]

/-- Where every byte is specified, reading gives those bytes and uses up no free value. -/
theorem Memory.readBytes_specified (m : Memory) :
    ∀ (b : List Byte) (a f : Nat), (∀ i, i < b.length → m.get (a + i) = some (byteAt b i)) →
      m.readBytes a b.length f = (b, f) := by
  intro b
  induction b with
  | nil => intro a f _; rfl
  | cons x b ih =>
    intro a f h
    have h0 : m.get a = some x := by simpa [byteAt] using h 0 (by simp)
    have ht : m.readBytes (a + 1) b.length f = (b, f) := ih (a + 1) f fun i hi => by
      have := h (i + 1) (by simpa using hi)
      simpa [byteAt, Nat.add_comm, Nat.add_left_comm, Nat.add_assoc] using this
    simp only [List.length_cons, Memory.readBytes, h0, ht]

theorem State.reset_inBuf_wf : State.reset.inBuf.wf = true := by decide
theorem State.reset_outBuf_wf : State.reset.outBuf.wf = true := by decide

end Sys2Proof.Machine
end

