-- ==== Sys2Proof/Laws/Bytes.lean ====
section
/-! SUPPORT. The laws of byte sequences and blocks: lengths, pieces, words and blocks as bytes, padding and digest lengths. -/

namespace Sys2Proof.Machine

/-! ## Sequences -/

theorem byteAt_of_lt {b : List Byte} {i : Nat} (h : i < b.length) : byteAt b i = b[i] := by simp [byteAt, h]

theorem byteAt_of_ge {b : List Byte} {i : Nat} (h : b.length ≤ i) : byteAt b i = 0 := by
  simp [byteAt, List.getElem?_eq_none h]

@[simp] theorem chunks_length {α : Type} (k : Nat) : ∀ (n : Nat) (b : List α), (chunks k n b).length = n := by
  intro n
  induction n with
  | zero => intro b; rfl
  | succ n ih => intro b; simp [chunks, ih]

/-- The pieces of a sequence of n·k elements, put together again. -/
theorem chunks_flatten {α : Type} (k : Nat) : ∀ (n : Nat) (b : List α), b.length = n * k → (chunks k n b).flatten = b := by
  intro n
  induction n with
  | zero => intro b h; simp [chunks, List.length_eq_zero_iff.mp (by omega : b.length = 0)]
  | succ n ih =>
    intro b h
    rw [Nat.succ_mul] at h
    have hd : (chunks k n (b.drop k)).flatten = b.drop k := ih _ (by simp; omega)
    simp [chunks, hd]

/-- Each piece of a sequence of at least n·k elements has k of them. -/
theorem length_of_mem_chunks {α : Type} (k : Nat) :
    ∀ (n : Nat) (b : List α), n * k ≤ b.length → ∀ c ∈ chunks k n b, c.length = k := by
  intro n
  induction n with
  | zero => intro b _ c hc; cases hc
  | succ n ih =>
    intro b h c hc
    rw [Nat.succ_mul] at h
    rcases List.mem_cons.mp hc with rfl | hc
    · simp; omega
    · exact ih _ (by simp; omega) c hc

/-! ## Words and bytes -/

theorem wordByte_le32 (b0 b1 b2 b3 : Byte) :
    wordByte (le32 b0 b1 b2 b3) 0 = b0 ∧ wordByte (le32 b0 b1 b2 b3) 1 = b1 ∧
      wordByte (le32 b0 b1 b2 b3) 2 = b2 ∧ wordByte (le32 b0 b1 b2 b3) 3 = b3 := by
  refine ⟨?_, ?_, ?_, ?_⟩ <;> refine BitVec.eq_of_getLsbD_eq fun i hi => ?_ <;>
    simp only [wordByte, le32, BitVec.getLsbD_extractLsb', BitVec.getLsbD_append]
  · simp [hi]
  · simp [hi, show ¬ (8 + i < 8) by omega, show 8 + i - 8 = i by omega]
  · simp [hi, show ¬ (16 + i < 8) by omega, show ¬ (16 + i - 8 < 8) by omega, show 16 + i - 8 - 8 = i by omega]
  · simp [hi, show ¬ (24 + i < 8) by omega, show ¬ (24 + i - 8 < 8) by omega, show ¬ (24 + i - 8 - 8 < 8) by omega,
      show 24 + i - 8 - 8 - 8 = i by omega]

theorem le32_wordByte (w : Word) : le32 (wordByte w 0) (wordByte w 1) (wordByte w 2) (wordByte w 3) = w := by
  refine BitVec.eq_of_getLsbD_eq fun i hi => ?_
  simp only [wordByte, le32, BitVec.getLsbD_extractLsb', BitVec.getLsbD_append]
  by_cases h0 : i < 8
  · simp [h0]
  · by_cases h1 : i - 8 < 8
    · simp [h0, h1, show 8 + (i - 8) = i by omega]
    · by_cases h2 : i - 8 - 8 < 8
      · simp [h0, h1, h2, show 16 + (i - 8 - 8) = i by omega]
      · simp [h0, h1, h2, show i - 8 - 8 - 8 < 8 by omega, show 24 + (i - 8 - 8 - 8) = i by omega]

theorem wordOf_leBytes (w : Word) : wordOf (leBytes w) = w := by
  simpa [wordOf, leBytes, byteAt] using le32_wordByte w

/-! ## Blocks -/

@[simp] theorem Block.bytes_length (s : Block) : s.bytes.length = 16 := rfl

theorem blockOf_bytes (s : Block) : blockOf s.bytes = s := rfl

theorem blockOf_bytes_append (s : Block) (b : List Byte) : blockOf (s.bytes ++ b) = s := rfl

/-- A list of sixteen bytes, listed. -/
theorem bytes_blockOf {b : List Byte} (h : b.length = 16) : (blockOf b).bytes = b := by
  refine List.ext_getElem (by simp [h]) fun i hi _ => ?_
  simp only [Block.bytes_length] at hi
  simp only [blockOf, colAt, Block.bytes, Col.bytes, byteAt]
  interval_cases i <;> simp_all

@[simp] theorem blocksBytes_nil : blocksBytes [] = [] := rfl

@[simp] theorem blocksBytes_cons (a : Block) (l : List Block) : blocksBytes (a :: l) = a.bytes ++ blocksBytes l := by
  simp [blocksBytes]

@[simp] theorem blocksBytes_length (l : List Block) : (blocksBytes l).length = 16 * l.length := by
  induction l with
  | nil => rfl
  | cons a l ih => simp [ih]; omega

@[simp] theorem blocksOf_length (b : List Byte) : (blocksOf b).length = b.length / 16 := by simp [blocksOf]

/-- The blocks of the bytes of blocks. -/
theorem blocksOf_blocksBytes (l : List Block) : blocksOf (blocksBytes l) = l := by
  induction l with
  | nil => rfl
  | cons a l ih =>
    have e : (blocksBytes (a :: l)).length / 16 = (blocksBytes l).length / 16 + 1 := by simp
    simp only [blocksOf] at ih ⊢
    rw [e]
    simp only [chunks, List.map_cons, blocksBytes_cons]
    rw [List.drop_left' (by simp), List.take_left' (by simp), ih, blockOf_bytes]

/-- The bytes of the blocks of a sequence of whole blocks. -/
theorem blocksBytes_blocksOf {b : List Byte} (h : b.length % 16 = 0) : blocksBytes (blocksOf b) = b := by
  have hc : ∀ c ∈ chunks 16 (b.length / 16) b, (blockOf c).bytes = c := fun c hc =>
    bytes_blockOf (length_of_mem_chunks 16 _ b (by omega) c hc)
  have hf := chunks_flatten 16 (b.length / 16) b (by omega)
  conv_rhs => rw [← hf]
  simp only [blocksBytes, blocksOf, List.flatMap_map]
  generalize chunks 16 (b.length / 16) b = l at hc
  induction l with
  | nil => rfl
  | cons c l ih => simp [hc c (by simp), ih fun d hd => hc d (by simp [hd])]

/-! ## Lengths of the units' outputs -/

@[simp] theorem ecbE_length (k : Block) (p : List Block) : (ecbE k p).length = p.length := by simp [ecbE]

@[simp] theorem ecbD_length (k : Block) (p : List Block) : (ecbD k p).length = p.length := by simp [ecbD]

@[simp] theorem cbcE_length (k : Block) (p : List Block) : ∀ iv : Block, (cbcE k iv p).length = p.length := by
  induction p with
  | nil => intro iv; rfl
  | cons a p ih => intro iv; simp [cbcE, ih]

@[simp] theorem cbcD_length (k : Block) (c : List Block) : ∀ iv : Block, (cbcD k iv c).length = c.length := by
  induction c with
  | nil => intro iv; rfl
  | cons a c ih => intro iv; simp [cbcD, ih]

theorem pad_length (m : List Byte) : (pad m).length = m.length + padLength m.length := by simp [pad]

@[simp] theorem sha256_length (m : List Byte) : (sha256 m).length = 32 := rfl

@[simp] theorem hmac_length (ik m : List Byte) : (hmac ik m).length = 32 := rfl

theorem unpadLax_length {d r : List Byte} (h : unpadLax d = some r) : r.length ≤ d.length := by
  unfold unpadLax at h
  split at h
  · cases h
  · cases h; simp

theorem unpadStrict_length {d r : List Byte} (h : unpadStrict d = some r) : r.length ≤ d.length := by
  unfold unpadStrict at h
  split at h
  · cases h
  · split at h
    · cases h
    · cases h; simp

theorem unpad_length {strict : Bool} {d r : List Byte} (h : unpad strict d = some r) : r.length ≤ d.length := by
  cases strict
  · exact unpadLax_length (by simpa [unpad] using h)
  · exact unpadStrict_length (by simpa [unpad] using h)

theorem envCiphertext_length (ck iv : Block) (m : List Byte) :
    (envCiphertext ck iv m).length = 16 * (m.length / 16 + 1) := by
  simp only [envCiphertext, blocksBytes_length, cbcE_length, blocksOf_length, pad_length, padLength]
  omega

theorem envelope_length (ck : Block) (ik : List Byte) (iv : Block) (m : List Byte) :
    (envelope ck ik iv m).length = 64 + 16 * (m.length / 16) := by
  simp only [envelope, List.length_append, envCiphertext_length, hmac_length, Block.bytes_length]
  omega

theorem signedRegion_length (e : List Byte) : (signedRegion e).length = e.length - 32 := by simp [signedRegion]

theorem envPadded_length (ck : Block) (e : List Byte) : (envPadded ck e).length = 16 * ((e.length - 48) / 16) := by
  simp only [envPadded, blocksBytes_length, cbcD_length, blocksOf_length, List.length_drop, signedRegion_length]
  omega

theorem openEnvelope_length {ck : Block} {ik e r : List Byte} {strict : Bool}
    (h : openEnvelope ck ik strict e = .ok r) : r.length ≤ e.length := by
  unfold openEnvelope at h
  split at h
  · cases h
  · split at h
    · cases h
    · rename_i r' hr
      cases h
      have := unpad_length hr
      rw [envPadded_length] at this
      omega

/-- An envelope is opened or turned away with one of two errors. -/
theorem openEnvelope_error {ck : Block} {ik e : List Byte} {strict : Bool} {c : ErrCode}
    (h : openEnvelope ck ik strict e = .error c) : c = .integrityFailure ∨ c = .invalidPadding := by
  unfold openEnvelope at h
  split at h
  · cases h; exact .inl rfl
  · split at h
    · cases h; exact .inr rfl
    · cases h

end Sys2Proof.Machine
end

