-- ==== Sys2Proof/Laws/Aes.lean ====
section
/-! SUPPORT. The AES transformations and their inverses (40_aes.md R101, R105, R106, R107). -/

namespace Sys2Proof.Machine

/-! ## The field product is additive in its second factor -/

theorem xtime_xor (a b : Byte) : xtime (a ^^^ b) = xtime a ^^^ xtime b := by
  simp only [xtime, BitVec.getLsbD_xor, BitVec.shiftLeft_xor_distrib]
  have e : ∀ x y m n : Byte, x ^^^ y ^^^ (m ^^^ n) = x ^^^ m ^^^ (y ^^^ n) := fun x y m n => by ac_rfl
  rw [← e]
  cases a.getLsbD 7 <;> cases b.getLsbD 7 <;> simp

theorem xtimes_xor (n : Nat) (a b : Byte) : xtimes n (a ^^^ b) = xtimes n a ^^^ xtimes n b := by
  induction n with
  | zero => rfl
  | succ n ih => simp only [xtimes, ih, xtime_xor]

theorem gfPartial_xor (m a b : Byte) (n : Nat) : gfPartial m (a ^^^ b) n = gfPartial m a n ^^^ gfPartial m b n := by
  induction n with
  | zero => simp [gfPartial]
  | succ n ih =>
    simp only [gfPartial, ih, xtimes_xor]
    cases m.getLsbD n
    · simp
    · simp only [if_true]; ac_rfl

theorem gfMul_xor_right (m a b : Byte) : gfMul m (a ^^^ b) = gfMul m a ^^^ gfMul m b := gfPartial_xor m a b 8

/-! ## The two MixColumns matrices are inverse, byte by byte -/

/-- A row of the product of the matrix with first row a0..a3 and one column b0..b3 of the other, applied to a byte. -/
def mixCoeff (a0 a1 a2 a3 b0 b1 b2 b3 : Byte) (x : Byte) : Byte :=
  gfMul a0 (gfMul b0 x) ^^^ gfMul a1 (gfMul b1 x) ^^^ gfMul a2 (gfMul b2 x) ^^^ gfMul a3 (gfMul b3 x)

theorem mixCoeff_inv_diag : ∀ x : Byte, mixCoeff 0x0e 0x0b 0x0d 0x09 0x02 0x01 0x01 0x03 x = x := by decide +kernel
theorem mixCoeff_inv_1 : ∀ x : Byte, mixCoeff 0x0e 0x0b 0x0d 0x09 0x03 0x02 0x01 0x01 x = 0 := by decide +kernel
theorem mixCoeff_inv_2 : ∀ x : Byte, mixCoeff 0x0e 0x0b 0x0d 0x09 0x01 0x03 0x02 0x01 x = 0 := by decide +kernel
theorem mixCoeff_inv_3 : ∀ x : Byte, mixCoeff 0x0e 0x0b 0x0d 0x09 0x01 0x01 0x03 0x02 x = 0 := by decide +kernel
theorem mixCoeff_fwd_diag : ∀ x : Byte, mixCoeff 0x02 0x03 0x01 0x01 0x0e 0x09 0x0d 0x0b x = x := by decide +kernel
theorem mixCoeff_fwd_1 : ∀ x : Byte, mixCoeff 0x02 0x03 0x01 0x01 0x0b 0x0e 0x09 0x0d x = 0 := by decide +kernel
theorem mixCoeff_fwd_2 : ∀ x : Byte, mixCoeff 0x02 0x03 0x01 0x01 0x0d 0x0b 0x0e 0x09 x = 0 := by decide +kernel
theorem mixCoeff_fwd_3 : ∀ x : Byte, mixCoeff 0x02 0x03 0x01 0x01 0x09 0x0d 0x0b 0x0e x = 0 := by decide +kernel

/-- One row of a product of two circulant matrices, its sixteen terms regrouped by the byte they act on. -/
theorem mix_row (a0 a1 a2 a3 b0 b1 b2 b3 x0 x1 x2 x3 : Byte) :
    gfMul a0 (gfMul b0 x0 ^^^ gfMul b1 x1 ^^^ gfMul b2 x2 ^^^ gfMul b3 x3) ^^^
    gfMul a1 (gfMul b3 x0 ^^^ gfMul b0 x1 ^^^ gfMul b1 x2 ^^^ gfMul b2 x3) ^^^
    gfMul a2 (gfMul b2 x0 ^^^ gfMul b3 x1 ^^^ gfMul b0 x2 ^^^ gfMul b1 x3) ^^^
    gfMul a3 (gfMul b1 x0 ^^^ gfMul b2 x1 ^^^ gfMul b3 x2 ^^^ gfMul b0 x3) =
    mixCoeff a0 a1 a2 a3 b0 b3 b2 b1 x0 ^^^ mixCoeff a0 a1 a2 a3 b1 b0 b3 b2 x1 ^^^
      mixCoeff a0 a1 a2 a3 b2 b1 b0 b3 x2 ^^^ mixCoeff a0 a1 a2 a3 b3 b2 b1 b0 x3 := by
  simp only [gfMul_xor_right, mixCoeff]
  ac_rfl

/-- The rows of a matrix of this shape are one row, rotated: each row of the product is the first one on rotated bytes. -/
theorem mixWith_mixWith (a0 a1 a2 a3 b0 b1 b2 b3 : Byte)
    (h0 : ∀ x, mixCoeff a0 a1 a2 a3 b0 b3 b2 b1 x = x) (h1 : ∀ x, mixCoeff a0 a1 a2 a3 b1 b0 b3 b2 x = 0)
    (h2 : ∀ x, mixCoeff a0 a1 a2 a3 b2 b1 b0 b3 x = 0) (h3 : ∀ x, mixCoeff a0 a1 a2 a3 b3 b2 b1 b0 x = 0) (c : Col) :
    mixWith a0 a1 a2 a3 (mixWith b0 b1 b2 b3 c) = c := by
  have row : ∀ x0 x1 x2 x3 : Byte,
      mixCoeff a0 a1 a2 a3 b0 b3 b2 b1 x0 ^^^ mixCoeff a0 a1 a2 a3 b1 b0 b3 b2 x1 ^^^
        mixCoeff a0 a1 a2 a3 b2 b1 b0 b3 x2 ^^^ mixCoeff a0 a1 a2 a3 b3 b2 b1 b0 x3 = x0 := by
    intro x0 x1 x2 x3; rw [h0, h1, h2, h3]; simp
  obtain ⟨x0, x1, x2, x3⟩ := c
  simp only [mixWith, Col.mk.injEq]
  refine ⟨?_, ?_, ?_, ?_⟩
  · exact (mix_row ..).trans (row x0 x1 x2 x3)
  · refine Eq.trans ?_ ((mix_row ..).trans (row x1 x2 x3 x0)); simp only [gfMul_xor_right]; ac_rfl
  · refine Eq.trans ?_ ((mix_row ..).trans (row x2 x3 x0 x1)); simp only [gfMul_xor_right]; ac_rfl
  · refine Eq.trans ?_ ((mix_row ..).trans (row x3 x0 x1 x2)); simp only [gfMul_xor_right]; ac_rfl

/-! ## The inverses -/

theorem invSbox_sbox : ∀ x : Byte, invSbox (sbox x) = x := by decide +kernel
theorem sbox_invSbox : ∀ x : Byte, sbox (invSbox x) = x := by decide +kernel

@[simp] theorem invSubBytes_subBytes (s : Block) : invSubBytes (subBytes s) = s := by
  simp [invSubBytes, subBytes, Block.mapCols, Col.map, invSbox_sbox]

@[simp] theorem subBytes_invSubBytes (s : Block) : subBytes (invSubBytes s) = s := by
  simp [invSubBytes, subBytes, Block.mapCols, Col.map, sbox_invSbox]

@[simp] theorem invShiftRows_shiftRows (s : Block) : invShiftRows (shiftRows s) = s := rfl

@[simp] theorem shiftRows_invShiftRows (s : Block) : shiftRows (invShiftRows s) = s := rfl

@[simp] theorem invMixColumns_mixColumns (s : Block) : invMixColumns (mixColumns s) = s := by
  have h := mixWith_mixWith 0x0e 0x0b 0x0d 0x09 0x02 0x03 0x01 0x01
    mixCoeff_inv_diag mixCoeff_inv_1 mixCoeff_inv_2 mixCoeff_inv_3
  simp only [invMixColumns, mixColumns, Block.mapCols, h]

@[simp] theorem mixColumns_invMixColumns (s : Block) : mixColumns (invMixColumns s) = s := by
  have h := mixWith_mixWith 0x02 0x03 0x01 0x01 0x0e 0x0b 0x0d 0x09
    mixCoeff_fwd_diag mixCoeff_fwd_1 mixCoeff_fwd_2 mixCoeff_fwd_3
  simp only [invMixColumns, mixColumns, Block.mapCols, h]

theorem Col.xor_xor_cancel (a b : Col) : (a.xor b).xor b = a := by
  simp only [Col.xor, BitVec.xor_assoc, BitVec.xor_self, BitVec.xor_zero]

@[simp] theorem Block.xor_xor_cancel (a b : Block) : (a.xor b).xor b = a := by
  simp only [Block.xor, Col.xor_xor_cancel]

@[simp] theorem addRoundKey_addRoundKey (rk s : Block) : addRoundKey rk (addRoundKey rk s) = s :=
  Block.xor_xor_cancel s rk

theorem Block.xor_comm (a b : Block) : a.xor b = b.xor a := by
  simp [Block.xor, Col.xor, BitVec.xor_comm]

theorem Block.xor_assoc (a b c : Block) : (a.xor b).xor c = a.xor (b.xor c) := by
  simp [Block.xor, Col.xor, BitVec.xor_assoc]

end Sys2Proof.Machine
end

