-- ==== Sys2Proof/Laws/Ops.lean ====
section
/-! SUPPORT. For each shared operation of the commands one lemma that says once everything it can do: the operands, the shape of the
raw AES commands, and what a completion step can be. -/

namespace Sys2Proof.Machine

/-! ## Operands -/

@[simp] theorem inputBytes_length (s : State) (n : Nat) : (inputBytes s n).length = n := Memory.readBytes_length _ _ _ _

/-- A wholly specified input is read as it stands, and no free value is used up. -/
theorem inputBytes_specified {s : State} {b : List Byte} (h : ∀ i, i < b.length → s.inBuf.get i = some (byteAt b i)) :
    inputBytes s b.length = b ∧ afterInput s b.length = s := by
  have e := Memory.readBytes_specified s.inBuf b 0 s.freeCount (by simpa using h)
  simp [inputBytes, afterInput, e]

theorem blocklen_iff (s : State) (l : Nat) : blocklen s l = true ↔ 16 ≤ l ∧ l % 16 = 0 ∧ l ≤ s.bufSize := by
  simp [blocklen]

theorem envlen_iff (l : Nat) : envlen l = true ↔ 64 ≤ l ∧ l % 16 = 0 := by simp [envlen]

theorem keysLoaded_iff (s : State) : keysLoaded s = true ↔ s.ckWritten = 0xF ∧ s.ikWritten = 0xFF := by
  simp [keysLoaded, ckLoaded, ikLoaded]

/-! ## The ways a command can complete -/

/-- The states a command's reads and its draw lead to: the state itself but for the counts of free values and draws. -/
def Consumed (s u : State) : Prop :=
  u = { s with freeCount := u.freeCount, rngAnswers := u.rngAnswers, rngCount := u.rngCount }

theorem Consumed.refl (s : State) : Consumed s s := rfl

theorem consumed_afterInput (s : State) (n : Nat) : Consumed s (afterInput s n) := rfl

theorem consumed_rngDrawn (s : State) : Consumed s (rngDrawn s) := rfl

theorem consumed_afterInput_rngDrawn (s : State) (n : Nat) : Consumed s (afterInput (rngDrawn s) n) := rfl

/-- What a completion step is: an error completion with a code that P admits, or a success whose output fits OUT_BUF where
BUF_SIZE is legal (60_exceptions.md R225, R226). -/
def CompletesWith (P : ErrCode → Prop) (s : State) (r : Result) : Prop :=
  ∃ u, Consumed s u ∧
    ((∃ e, P e ∧ r = .next (raiseError e u)) ∨
      ∃ out : List Byte, (Config.LegalBufSize s.bufSize → out.length ≤ s.bufSize) ∧ r = .next (finish out u))

/-- The errors a legal command can report (60_exceptions.md R220). -/
def CommandError (e : ErrCode) : Prop := e ≠ .ok ∧ e ≠ .illegalCommand

/-- A legal command's completion. -/
abbrev Completes (s : State) (r : Result) : Prop := CompletesWith CommandError s r

theorem CompletesWith.mono {P Q : ErrCode → Prop} (h : ∀ e, P e → Q e) {s : State} {r : Result}
    (hr : CompletesWith P s r) : CompletesWith Q s r := by
  obtain ⟨u, hu, ⟨e, he, hn⟩ | ho⟩ := hr
  · exact ⟨u, hu, .inl ⟨e, h e he, hn⟩⟩
  · exact ⟨u, hu, .inr ho⟩

theorem completes_fail {P : ErrCode → Prop} {s u : State} {e : ErrCode} (hu : Consumed s u) (he : P e) : CompletesWith P s (fail e u) :=
  ⟨u, hu, .inl ⟨e, he, rfl⟩⟩

theorem completes_succeed {P : ErrCode → Prop} {s u : State} {out : List Byte} (hu : Consumed s u)
    (ho : Config.LegalBufSize s.bufSize → out.length ≤ s.bufSize) : CompletesWith P s (succeed out u) :=
  ⟨u, hu, .inr ⟨out, ho, rfl⟩⟩

/-- The raw AES commands: the first failing check, or the mode's output. -/
theorem rawCipher_cases (mode : List Block → List Block) (s : State) :
    (blocklen s (lenOperand s) = false ∧ rawCipher mode s = .next (raiseError .lengthError s)) ∨
    (blocklen s (lenOperand s) = true ∧ ckLoaded s = false ∧ rawCipher mode s = .next (raiseError .keyNotLoaded s)) ∨
    (blocklen s (lenOperand s) = true ∧ ckLoaded s = true ∧
      rawCipher mode s =
        .next (finish (blocksBytes (mode (blocksOf (inputBytes s (lenOperand s))))) (afterInput s (lenOperand s)))) := by
  unfold rawCipher fail succeed
  cases blocklen s (lenOperand s) <;> cases ckLoaded s <;> simp

theorem rawCipher_completes {mode : List Block → List Block} (hm : ∀ p, (mode p).length = p.length) (s : State) :
    Completes s (rawCipher mode s) := by
  rcases rawCipher_cases mode s with ⟨_, h⟩ | ⟨_, _, h⟩ | ⟨hl, _, h⟩ <;> rw [h]
  · exact completes_fail (Consumed.refl s) (by simp [CommandError])
  · exact completes_fail (Consumed.refl s) (by simp [CommandError])
  · refine completes_succeed (consumed_afterInput s _) fun _ => ?_
    have := (blocklen_iff s _).mp hl
    simp only [blocksBytes_length, hm, blocksOf_length, inputBytes_length]
    omega

theorem execHmacSha256_completes (s : State) : Completes s (execHmacSha256 s) := by
  unfold execHmacSha256
  split
  · exact completes_fail (Consumed.refl s) (by simp [CommandError])
  · split
    · exact completes_fail (Consumed.refl s) (by simp [CommandError])
    · exact completes_succeed (consumed_afterInput s _) fun hb => by rw [hmac_length]; omega

theorem execPkcs7Pad_completes (s : State) : Completes s (execPkcs7Pad s) := by
  unfold execPkcs7Pad
  split
  · exact completes_fail (Consumed.refl s) (by simp [CommandError])
  · refine completes_succeed (consumed_afterInput s _) fun hb => ?_
    rw [pad_length, inputBytes_length]
    simp only [padLength]
    omega

theorem execPkcs7Unpad_completes (s : State) : Completes s (execPkcs7Unpad s) := by
  unfold execPkcs7Unpad
  split
  · exact completes_fail (Consumed.refl s) (by simp [CommandError])
  · rename_i hl
    split
    · exact completes_fail (consumed_afterInput s _) (by simp [CommandError])
    · rename_i r hr
      refine completes_succeed (consumed_afterInput s _) fun _ => ?_
      have h1 := unpad_length hr
      have h2 := (blocklen_iff s (lenOperand s)).mp (by simpa using hl)
      rw [inputBytes_length] at h1
      omega

theorem execEncode_completes (s : State) : Completes s (execEncode s) := by
  unfold execEncode
  split
  · exact completes_fail (Consumed.refl s) (by simp [CommandError])
  · rename_i hl
    split
    · exact completes_fail (Consumed.refl s) (by simp [CommandError])
    · split
      · exact completes_fail (consumed_rngDrawn s) (by simp [CommandError])
      · refine completes_succeed (consumed_afterInput_rngDrawn s _) fun hb => ?_
        rw [envelope_length, inputBytes_length]
        simp only [encMax] at hl
        omega

theorem execDecode_completes (s : State) : Completes s (execDecode s) := by
  unfold execDecode
  split
  · exact completes_fail (Consumed.refl s) (by simp [CommandError])
  · split
    · exact completes_fail (Consumed.refl s) (by simp [CommandError])
    · split
      · exact completes_fail (Consumed.refl s) (by simp [CommandError])
      · split
        · rename_i e he
          refine completes_fail (consumed_afterInput s _) ?_
          rcases openEnvelope_error he with rfl | rfl <;> simp [CommandError]
        · rename_i r hr
          refine completes_succeed (consumed_afterInput s _) fun _ => ?_
          have := openEnvelope_length hr
          rw [inputBytes_length] at this
          omega

/-- Every command completes, in one of the two ways, from every state. -/
theorem exec_completes (i : Instr) (s : State) : Completes s (exec i s) := by
  cases i
  · exact execEncode_completes s
  · exact execDecode_completes s
  · exact rawCipher_completes (fun p => ecbE_length _ p) s
  · exact rawCipher_completes (fun p => ecbD_length _ p) s
  · exact rawCipher_completes (fun p => cbcE_length _ p _) s
  · exact rawCipher_completes (fun p => cbcD_length _ p _) s
  · exact execHmacSha256_completes s
  · exact execPkcs7Pad_completes s
  · exact execPkcs7Unpad_completes s

theorem execIllegal_completes (s : State) : CompletesWith (· = .illegalCommand) s (execIllegal s) :=
  completes_fail (Consumed.refl s) rfl

end Sys2Proof.Machine
end

