-- ==== Sys2Proof/Laws/Port.lean ====
section
/-! SUPPORT. What the host bus port can do: one lemma for the reads, one for each write guard, one for an access. -/

namespace Sys2Proof.Machine

/-! ## The address map -/

/-- The register map names no buffer word. -/
theorem registerAt_not_buffer (n k : Nat) : registerAt n ≠ some (.inWord k) ∧ registerAt n ≠ some (.outWord k) := by
  have hall : ∀ row ∈ registerTable, row.2 ≠ .inWord k ∧ row.2 ≠ .outWord k := by
    simp [registerTable]
  constructor <;> intro h <;> simp only [registerAt, Option.map_eq_some_iff] at h <;>
    obtain ⟨row, hrow, he⟩ := h <;> have := hall row (List.mem_of_find?_eq_some hrow) <;> simp_all

/-- An offset that names a word of IN_BUF lies inside its window. -/
theorem locate_inWord {n : Nat} {addr : Offset} {k : Nat} (h : locate n addr = some (.inWord k)) :
    addr.toNat = 0x1000 + 4 * k ∧ 4 * k < n := by
  unfold locate locateAt at h
  split at h
  · cases h
  · split at h
    · exact absurd h (registerAt_not_buffer _ k).1
    · split at h
      · cases h; omega
      · split at h
        · cases h
        · split at h <;> cases h

/-- An offset that names a word of OUT_BUF lies inside its window. -/
theorem locate_outWord {n : Nat} {addr : Offset} {k : Nat} (h : locate n addr = some (.outWord k)) :
    addr.toNat = 0x2000 + 4 * k ∧ 4 * k < n := by
  unfold locate locateAt at h
  split at h
  · cases h
  · split at h
    · exact absurd h (registerAt_not_buffer _ k).2
    · split at h
      · cases h
      · split at h
        · cases h
        · split at h
          · cases h; omega
          · cases h

/-! ## Reads -/

/-- A read changes nothing of the state but the count of free values used up (20_memory.md R71). -/
theorem readLocation_state (l : Location) (s : State) :
    (readLocation l s).2 = { s with freeCount := (readLocation l s).2.freeCount } := by
  cases l <;> try rfl
  simp only [readLocation]
  split <;> rfl

/-! ## The write guards -/

theorem unlessBusy_idle {effect : State → State} {s : State} (h : s.seq = .idle) : unlessBusy effect s = effect s := by
  simp [unlessBusy, busy, h]

theorem unlessBusy_busy {effect : State → State} {s : State} (h : s.seq = .busy) :
    unlessBusy effect s = { s with werr := true } := by
  simp [unlessBusy, busy, h]

theorem unlessLocked_unlocked {effect : State → State} {s : State} (h : s.keyLock = false) :
    unlessLocked effect s = effect s := by
  simp [unlessLocked, h]

theorem unlessLocked_locked {effect : State → State} {s : State} (h : s.keyLock = true) :
    unlessLocked effect s = { s with werr := true } := by
  simp [unlessLocked, h]

/-- A write in `busy` changes no field but DONE and WERR. -/
theorem writeLocation_busy {s : State} (h : s.seq = .busy) (l : Location) (v : Word) :
    writeLocation l v s =
      { s with done := (writeLocation l v s).done, werr := (writeLocation l v s).werr } := by
  cases l <;> simp [writeLocation, unlessBusy_busy h, writeStatus]

/-- The effect of an access: a `buserr` that changes nothing, a read, or a write; the answer is latched (20_memory.md R60). -/
theorem hostAccess_cases (a : BusAccess) (s : State) :
    hostAccess a s = { s with response := some .buserr } ∨
    (∃ addr l, a = .read addr 32 ∧ locate s.bufSize addr = some l ∧
      hostAccess a s = { (readLocation l s).2 with response := some (.okData (readLocation l s).1) }) ∨
    (∃ addr v l, a = .write addr 32 v ∧ locate s.bufSize addr = some l ∧
      hostAccess a s = { writeLocation l v s with response := some .ok }) := by
  cases a with
  | read addr bits =>
    by_cases hb : bits = 32
    · subst hb
      cases hl : locate s.bufSize addr with
      | none => exact .inl (by simp [hostAccess, target, hl])
      | some l => exact .inr (.inl ⟨addr, l, rfl, hl, by simp [hostAccess, target, hl]⟩)
    · exact .inl (by simp [hostAccess, target, hb])
  | write addr bits v =>
    by_cases hb : bits = 32
    · subst hb
      cases hl : locate s.bufSize addr with
      | none => exact .inl (by simp [hostAccess, target, hl])
      | some l => exact .inr (.inr ⟨addr, v, l, rfl, hl, by simp [hostAccess, target, hl]⟩)
    · exact .inl (by simp [hostAccess, target, hb])

/-- The offset of a register names it, whatever BUF_SIZE is. -/
theorem locate_register {addr : Offset} {l : Location} (h : registerAt addr.toNat = some l) (n : Nat) :
    locate n addr = some l := by
  have hall : ∀ row ∈ registerTable, row.1 % 4 = 0 ∧ row.1 < 0x1000 := by decide
  have h' := h
  simp only [registerAt, Option.map_eq_some_iff] at h'
  obtain ⟨row, hrow, _⟩ := h'
  have hr := hall row (List.mem_of_find?_eq_some hrow)
  have he : row.1 = addr.toNat := by simpa using List.find?_some hrow
  rw [locate, locateAt, if_neg (by omega), if_pos (by omega), h]

/-- The offset of word k of the IN_BUF window. -/
theorem locate_of_inWord {n k : Nat} {addr : Offset} (h : addr.toNat = 0x1000 + 4 * k) (hk : 4 * k < n) :
    locate n addr = some (.inWord k) := by
  rw [locate, locateAt, h, if_neg (by omega), if_neg (by omega), if_pos (by omega)]
  congr 2; omega

/-- The offset of word k of the OUT_BUF window. -/
theorem locate_of_outWord {n k : Nat} {addr : Offset} (h : addr.toNat = 0x2000 + 4 * k) (hn : n ≤ 4096) (hk : 4 * k < n) :
    locate n addr = some (.outWord k) := by
  rw [locate, locateAt, h, if_neg (by omega), if_neg (by omega), if_neg (by omega), if_neg (by omega), if_pos (by omega)]
  congr 2; omega

/-- A write at a location's offset. -/
theorem hostAccess_write {s : State} {addr : Offset} {l : Location} (h : locate s.bufSize addr = some l) (v : Word) :
    hostAccess (.write addr 32 v) s = { writeLocation l v s with response := some .ok } := by
  simp [hostAccess, target, h]

/-- A read at a location's offset. -/
theorem hostAccess_read {s : State} {addr : Offset} {l : Location} (h : locate s.bufSize addr = some l) :
    hostAccess (.read addr 32) s = { (readLocation l s).2 with response := some (.okData (readLocation l s).1) } := by
  simp [hostAccess, target, h]

end Sys2Proof.Machine
end

