-- ==== Sys2Proof/Laws/Step.lean ====
section
/-! SUPPORT. What one step can do, said once, and the packaging of an invariant: kept by every step, so kept along every run. -/

namespace Sys2Proof.Machine

/-- A completion step of a busy sequencer, legal command or not. -/
theorem sequencerStep_cases (s : State) :
    (s.seq = .idle ∧ sequencerStep s = .next s) ∨ (s.seq = .busy ∧ CompletesWith (· ≠ .ok) s (sequencerStep s)) := by
  cases h : s.seq with
  | idle => exact .inl ⟨rfl, by simp [sequencerStep, h]⟩
  | busy =>
    refine .inr ⟨rfl, ?_⟩
    simp only [sequencerStep, h]
    split
    · exact (exec_completes _ s).mono fun _ h => h.1
    · exact (execIllegal_completes s).mono fun _ h => by simp [h]

/-- One step is a sequencer turn, a host access or a reset, by the head of the event list. -/
theorem step_cases (s : State) :
    (s.inputs = [] ∧ step s = sequencerStep s) ∨
    (∃ rest, s.inputs = .sequencer :: rest ∧ step s = sequencerStep { s with inputs := rest }) ∨
    (∃ a rest, s.inputs = .access a :: rest ∧ step s = .next (hostAccess a { s with inputs := rest })) ∨
    (∃ rest, s.inputs = .reset :: rest ∧ step s = .next (resetLine { s with inputs := rest })) := by
  unfold step
  split <;> rename_i h
  · exact .inl ⟨h, rfl⟩
  · exact .inr (.inl ⟨_, h, rfl⟩)
  · exact .inr (.inr (.inl ⟨_, _, h, rfl⟩))
  · exact .inr (.inr (.inr ⟨_, h, rfl⟩))

/-- A property that every step keeps holds after any number of steps. -/
theorem run_keeps {P : State → Prop} (hP : ∀ s t, P s → step s = .next t → P t) :
    ∀ (n : Nat) (s t : State), P s → Sys2Proof.core.run n s = .next t → P t := by
  intro n
  induction n with
  | zero => intro s t hs h; cases h; exact hs
  | succ n ih =>
    intro s t hs h
    simp only [Host.Core.run] at h
    split at h
    · rename_i u hu
      exact ih u t (hP s u hs hu) h
    · cases h
    · cases h

/-- A run of one step more. -/
theorem run_succ {n : Nat} {s u : State} (h : step s = .next u) :
    Sys2Proof.core.run (n + 1) s = Sys2Proof.core.run n u := by
  have h' : Sys2Proof.core.step s = .next u := h
  simp only [Host.Core.run, h']

/-- A run cut in two. -/
theorem run_add {m n : Nat} {s t : State} (h : Sys2Proof.core.run m s = .next t) :
    Sys2Proof.core.run (m + n) s = Sys2Proof.core.run n t := by
  induction m generalizing s with
  | zero => cases h; simp
  | succ m ih =>
    rw [show m + 1 + n = (m + n) + 1 by omega]
    simp only [Host.Core.run] at h ⊢
    cases hs : Sys2Proof.core.step s with
    | next u => rw [hs] at h; exact ih h
    | fault r => rw [hs] at h; cases h
    | refused r => rw [hs] at h; cases h
end Sys2Proof.Machine
end

