-- ==== Sys2Proof/Laws/PerInstr.lean ====
section
/-! SUPPORT. Facts about each command as a word, one lemma per constructor of Instr. -/

namespace Sys2Proof.Laws.WordForm

/-- The encoded word of a command has a zero reserved field and a listed code (30_encoding.md R80, R81). -/
def Statement (i : Instr) : Prop := i.wellFormed = true ∧ (fieldsOf (encode i)).wellFormed = true

theorem envEncode : Statement .envEncode := by unfold Statement; decide
theorem envDecode : Statement .envDecode := by unfold Statement; decide
theorem aesEcbEnc : Statement .aesEcbEnc := by unfold Statement; decide
theorem aesEcbDec : Statement .aesEcbDec := by unfold Statement; decide
theorem aesCbcEnc : Statement .aesCbcEnc := by unfold Statement; decide
theorem aesCbcDec : Statement .aesCbcDec := by unfold Statement; decide
theorem hmacSha256 : Statement .hmacSha256 := by unfold Statement; decide
theorem pkcs7Pad : Statement .pkcs7Pad := by unfold Statement; decide
theorem pkcs7Unpad : Statement .pkcs7Unpad := by unfold Statement; decide

end Sys2Proof.Laws.WordForm
end

