-- ==== Sys2Proof/Tests/Slice0.lean ====
section
/-! SUPPORT. Tests: the checks of WellFormed, words written out from R81, vectors of spec/95_test_vectors.md, and for each statement of
Certificates/Slice0/Obligations.lean that has hypotheses a state and operands that meet them together. -/

namespace Sys2Proof.Tests

open Sys2Proof.Machine

-- One theorem at a time: each kernel evaluation would otherwise hold a thread of its own until all are done.
set_option Elab.async false

/-! ## Helpers -/

/-- The n bytes of a number written in hex, first byte most significant. -/
def hexBytes (n v : Nat) : List Byte := (List.range n).map fun i => BitVec.ofNat 8 (v >>> (8 * (n - 1 - i)))

/-- CK_A, IK_A and IV_A of spec/95_test_vectors.md, as register words. -/
def ckA : Vector Word 4 := #v[0x03020100, 0x07060504, 0x0B0A0908, 0x0F0E0D0C]
def ikA : Vector Word 8 :=
  #v[0x03020100, 0x07060504, 0x0B0A0908, 0x0F0E0D0C, 0x13121110, 0x17161514, 0x1B1A1918, 0x1F1E1D1C]
def ivA : Vector Word 4 := #v[0xA3A2A1A0, 0xA7A6A5A4, 0xABAAA9A8, 0xAFAEADAC]

/-- The draw `ok(IV_A)`: byte i of the IV is `rng_data[8i+7 : 8i]` (R240). -/
def drawA : BitVec 128 := 0xafaeadacabaaa9a8a7a6a5a4a3a2a1a0

/-- Both keys loaded and IV_A drawn next. -/
def keyed : State :=
  { State.reset with ckey := ckA, ckWritten := 0xF, ikey := ikA, ikWritten := 0xFF, rngAnswers := [.ok drawA] }

/-- IN_BUF and LEN hold b. -/
def holding (b : List Byte) (s : State) : State :=
  { s with inBuf := { fill := none, cells := b.zipIdx.map fun c => (c.2, c.1) }, len := BitVec.ofNat 32 b.length }

/-- LEN alone. -/
def lenIs (n : Nat) (s : State) : State := { s with len := BitVec.ofNat 32 n }

/-- The next event. -/
def withInputs (l : List Input) (s : State) : State := { s with inputs := l }

/-- A command of the given CMD value runs. -/
def running (v : Word) : State := { keyed with cmd := v, seq := .busy }

/-- ERR, OUT_LEN and OUT_BUF of a next state. -/
def outcome (r : Result) : Option (ErrCode × Word × Memory) :=
  match r with
  | .next t => some (t.err, t.outLen, t.outBuf)
  | _ => none

/-- A success with the given output. -/
def wrote (b : List Byte) : Option (ErrCode × Word × Memory) :=
  some (.ok, BitVec.ofNat 32 b.length, Memory.ofOutput b)

/-- An error completion. -/
def raised (e : ErrCode) : Option (ErrCode × Word × Memory) := some (e, 0, Memory.ofOutput [])

/-- The answer of the port to an access. -/
def answer (a : BusAccess) (s : State) : Option BusResponse := (hostAccess a s).response

/-! ## WellFormed, Decode, the step -/

theorem test_reserved_bits_refused :
    (CmdFields.mk 0x01 0x000001).rsvZero = false ∧ (CmdFields.mk 0x01 0x000001).opcListed = true ∧
      (CmdFields.mk 0x01 0x000001).wellFormed = false := by decide

theorem test_unlisted_code_refused :
    (CmdFields.mk 0x03 0).rsvZero = true ∧ (CmdFields.mk 0x03 0).opcListed = false ∧
      (CmdFields.mk 0x03 0).wellFormed = false := by decide

theorem test_listed_code_accepted : (CmdFields.mk 0x31 0).wellFormed = true := by decide

/-- Words from the code table of R81, bit by bit: RSV in [31:8], OPC in [7:0]. -/
theorem test_decode_encode : decode 0b00000000000000000000000000000001 = .ok .envEncode := by decide
theorem test_decode_decode : decode 0b00000000000000000000000000000010 = .ok .envDecode := by decide
theorem test_decode_ecb_enc : decode 0b00000000000000000000000000010000 = .ok .aesEcbEnc := by decide
theorem test_decode_ecb_dec : decode 0b00000000000000000000000000010001 = .ok .aesEcbDec := by decide
theorem test_decode_cbc_enc : decode 0b00000000000000000000000000010010 = .ok .aesCbcEnc := by decide
theorem test_decode_cbc_dec : decode 0b00000000000000000000000000010011 = .ok .aesCbcDec := by decide
theorem test_decode_hmac : decode 0b00000000000000000000000000100000 = .ok .hmacSha256 := by decide
theorem test_decode_pad : decode 0b00000000000000000000000000110000 = .ok .pkcs7Pad := by decide
theorem test_decode_unpad : decode 0b00000000000000000000000000110001 = .ok .pkcs7Unpad := by decide

/-- V-REG-12, V-REG-13, V-REG-14, and OPC right with the top bit of RSV set. -/
theorem test_decode_illegal :
    decode 0x00000100 = .error .reservedBits ∧ decode 0x00000000 = .error .reservedCode ∧
      decode 0x00000003 = .error .reservedCode ∧ decode 0x80000001 = .error .reservedBits := by decide

theorem test_decode_table_word :
    decodeTableWord 32 0x13 = some .aesCbcDec ∧ decodeTableWord 8 0x13 = some .aesCbcDec ∧
      decodeTableWord 32 0x113 = none ∧ decodeTableWord 64 0x13 = none := by decide

/-- The first step after reset runs the word placed: V-PD-1, the padding of the empty input. -/
theorem test_fetch_word_runs :
    outcome (step (State.reset.withFetchWord 32 0x30)) = wrote (List.replicate 16 0x10) := by decide +kernel

theorem test_fetch_word_before_events :
    outcome (step ((withInputs [hostWR 0x014 5] State.reset).withFetchWord 32 0x100)) = raised .illegalCommand := by
  decide +kernel

/-! ## The units, on published vectors of spec/95_test_vectors.md section 2 -/

/-- S-AES-4. -/
theorem test_key_expansion :
    (roundKey (blockOf (hexBytes 16 0x2b7e151628aed2a6abf7158809cf4f3c)) 10).bytes =
      hexBytes 16 0xd014f9a8c9ee2589e13f0cc8b6630ca6 := by decide +kernel

/-- S-AES-5: the state after round 1. -/
theorem test_first_round :
    (encRounds (blockOf (hexBytes 16 0x2b7e151628aed2a6abf7158809cf4f3c)) 1
      (blockOf (hexBytes 16 0x3243f6a8885a308d313198a2e0370734))).bytes =
      hexBytes 16 0xa49c7ff2689f352b6b5bea43026a5049 := by decide +kernel

/-- S-SHA-3: 56 bytes, two blocks. -/
theorem test_sha256_two_blocks :
    sha256 (hexBytes 56
      0x6162636462636465636465666465666765666768666768696768696a68696a6b696a6b6c6a6b6c6d6b6c6d6e6c6d6e6f6d6e6f706e6f7071) =
      hexBytes 32 0x248d6a61d20638b8e5c026930c3e6039a33ce45964ff2167f6ecedd419db06c1 := by decide +kernel

/-! ## The commands, on the vectors of spec/95_test_vectors.md section 3 -/

/-- S-AES-1. -/
theorem test_ecb_enc :
    outcome (exec .aesEcbEnc (holding (hexBytes 16 0x00112233445566778899aabbccddeeff) keyed)) =
      wrote (hexBytes 16 0x69c4e0d86a7b0430d8cdb78070b4c55a) := by decide +kernel

/-- V-AES-11: the length is checked before the key. -/
theorem test_ecb_enc_length_first :
    outcome (exec .aesEcbEnc (lenIs 17 State.reset)) = raised .lengthError := by decide +kernel

/-- S-AES-2. -/
theorem test_ecb_dec :
    outcome (exec .aesEcbDec (holding (hexBytes 16 0x69c4e0d86a7b0430d8cdb78070b4c55a) keyed)) =
      wrote (hexBytes 16 0x00112233445566778899aabbccddeeff) := by decide +kernel

/-- V-AES-9. -/
theorem test_ecb_dec_too_long : outcome (exec .aesEcbDec (lenIs 4112 keyed)) = raised .lengthError := by decide +kernel

/-- V-AES-6. -/
theorem test_cbc_enc :
    outcome (exec .aesCbcEnc (holding (List.replicate 32 0) { keyed with iv := ivA })) =
      wrote (hexBytes 32 0x5e18d1fef61d087ec0a33ed734a7918febedf5c9f1ab3c71e14fafb2e3c616b8) := by decide +kernel

/-- The order of the checks of R122: CK not loaded. -/
theorem test_cbc_enc_no_key : outcome (exec .aesCbcEnc (lenIs 16 State.reset)) = raised .keyNotLoaded := by
  decide +kernel

/-- S-CBC-2, its first two blocks. -/
theorem test_cbc_dec :
    outcome (exec .aesCbcDec (holding (hexBytes 32 0x7649abac8119b246cee98e9b12e9197d5086cb9b507219ee95db113a917678b2)
      { keyed with ckey := #v[0x16157E2B, 0xA6D2AE28, 0x8815F7AB, 0x3C4FCF09], iv := ckA })) =
      wrote (hexBytes 32 0x6bc1bee22e409f96e93d7e117393172aae2d8a571e03ac9c9eb76fac45af8e51) := by decide +kernel

/-- V-AES-8. -/
theorem test_cbc_dec_not_whole : outcome (exec .aesCbcDec (lenIs 17 keyed)) = raised .lengthError := by decide +kernel

/-- V-HM-2. -/
theorem test_hmac :
    outcome (exec .hmacSha256 (holding [0x61, 0x62, 0x63] keyed)) =
      wrote (hexBytes 32 0xf0133729c4163dede81e21cd47839256da58171238c8a0d874397c73b14e1e47) := by decide +kernel

/-- V-HM-6. -/
theorem test_hmac_no_key : outcome (exec .hmacSha256 (lenIs 3 State.reset)) = raised .keyNotLoaded := by decide +kernel

/-- V-PD-3. -/
theorem test_pad :
    outcome (exec .pkcs7Pad (holding (hexBytes 16 0x59454c4c4f57205355424d4152494e45) State.reset)) =
      wrote (hexBytes 16 0x59454c4c4f57205355424d4152494e45 ++ List.replicate 16 0x10) := by decide +kernel

/-- V-PD-5. -/
theorem test_pad_too_long : outcome (exec .pkcs7Pad (lenIs 4096 State.reset)) = raised .lengthError := by decide +kernel

/-- V-UP-4. -/
theorem test_unpad_lax :
    outcome (exec .pkcs7Unpad (holding (List.replicate 15 0x41 ++ [0x03]) State.reset)) =
      wrote (List.replicate 13 0x41) := by decide +kernel

/-- V-UP-5. -/
theorem test_unpad_strict :
    outcome (exec .pkcs7Unpad (holding (List.replicate 15 0x41 ++ [0x03]) { State.reset with strictPad := true })) =
      raised .invalidPadding := by decide +kernel

/-- The envelope of V-ENC-5. -/
def env5 : List Byte :=
  hexBytes 16 0xa0a1a2a3a4a5a6a7a8a9aaabacadaeaf ++ hexBytes 16 0x472ef78d998a86e72f02cef63169044e ++
    hexBytes 32 0x564622bfbe3fa43f7390545d8860cfcd1f277197965613850681854d59b281c3

/-- V-ENC-5. -/
theorem test_encode : outcome (exec .envEncode (holding (List.replicate 15 0x41) keyed)) = wrote env5 := by
  decide +kernel

/-- V-ENC-9b: the keys are checked before the draw is taken. -/
theorem test_encode_keys_before_draw :
    outcome (exec .envEncode (holding (List.replicate 16 0) { State.reset with rngAnswers := [.fail] })) =
      raised .keyNotLoaded := by decide +kernel

/-- The envelope of V-DEC-9: a right tag over a plaintext 41×15 ∥ 03. -/
def env9 : List Byte :=
  hexBytes 16 0xa0a1a2a3a4a5a6a7a8a9aaabacadaeaf ++ hexBytes 16 0x764b09faad3baaa3dcbc23607175ee41 ++
    hexBytes 32 0x282be0666ee092fb0b716a7ca9d024cfdff008ef0e9a3d30b05af1675efd8b67

/-- V-DEC-9. -/
theorem test_decode_lax : outcome (exec .envDecode (holding env9 keyed)) = wrote (List.replicate 13 0x41) := by
  decide +kernel

/-- V-DEC-9s. -/
theorem test_decode_strict :
    outcome (exec .envDecode (holding env9 { keyed with strictPad := true })) = raised .invalidPadding := by decide +kernel

/-! ## The port (spec/95_test_vectors.md section 3.6) -/

/-- V-REG-2, V-REG-4, V-REG-5. -/
theorem test_register_reads :
    answer (.read 0x004 32) keyed = some (.okData 0x00001000) ∧ answer (.read 0x010 32) keyed = some (.okData 0x00000300) ∧
      answer (.read 0x020 32) keyed = some (.okData 0) := by decide +kernel

/-- V-REG-8, V-REG-9, V-REG-10. -/
theorem test_bus_errors :
    hostAccess (.write 0x01C 32 1) keyed = { keyed with response := some .buserr } ∧
      answer (.read 0x1002 32) keyed = some .buserr ∧ answer (.write 0x1000 8 1) keyed = some .buserr := by decide +kernel

/-- The codes of R220, written out, in STATUS[7:4]. -/
theorem test_error_codes :
    ([ErrCode.ok, .malformedEnvelope, .integrityFailure, .invalidPadding, .randomSourceFailure, .illegalCommand, .lengthError,
        .keyNotLoaded].map fun e => statusWord { State.reset with err := e }) =
      [0x00, 0x10, 0x20, 0x30, 0x40, 0x50, 0x60, 0x70] := by decide +kernel

/-- CTRL, CMD and OUT_LEN read at their own offsets. -/
theorem test_control_reads :
    answer (.read 0x008 32) { State.reset with keyLock := true, irqEn := true } = some (.okData 0x00000005) ∧
      answer (.read 0x00C 32) { State.reset with cmd := 0x100, outLen := 0x50 } = some (.okData 0x00000100) ∧
      answer (.read 0x018 32) { State.reset with cmd := 0x100, outLen := 0x50 } = some (.okData 0x00000050) := by decide +kernel

/-- V-REG-6. -/
theorem test_key_lock :
    (hostAccess (.write 0x020 32 0x12345678) { State.reset with keyLock := true }).werr = true ∧
      (hostAccess (.write 0x020 32 0x12345678) { State.reset with keyLock := true }).ckWritten = 0 := by decide +kernel

/-- Program P4, schedule A: the LEN write while busy is dropped, and STATUS reads 0x56 after the completion. -/
theorem test_write_while_busy :
    (hostAccess (.write 0x014 32 5) (running 0x100)).len = 0 ∧
      (hostAccess (.write 0x014 32 5) (running 0x100)).werr = true := by decide +kernel

/-- V-REG-16. -/
theorem test_status_write :
    statusWord (hostAccess (.write 0x010 32 6) { State.reset with done := true, werr := true }) = 0 := by decide +kernel

/-! ## Witnesses: states and operands that meet the hypotheses of each statement -/

theorem witness_DecodeAndEncodeAgree :
    Instr.wellFormed .envEncode = true ∧ decode 0x00000031 = .ok .pkcs7Unpad := by decide

theorem witness_DecodeSplitsAllWords :
    256 ≤ (0x100 : Word).toNat ∧ (0xFF : Word).toNat < 256 ∧
      (0xFF : Word).toNat ∉ [0x01, 0x02, 0x10, 0x11, 0x12, 0x13, 0x20, 0x30, 0x31] ∧
      (0x31 : Word).toNat ∈ [0x01, 0x02, 0x10, 0x11, 0x12, 0x13, 0x20, 0x30, 0x31] := by decide

theorem witness_StepRunsTheDecodedCommand :
    (running 0x30).seq = .busy ∧ decode (running 0x30).cmd = .ok .pkcs7Pad ∧ (running 0x30).inputs = [] ∧
      (withInputs [.sequencer, .reset] (running 0x30)).inputs = .sequencer :: [.reset] := by decide +kernel

theorem witness_IllegalCommandExactly :
    (running 0x100).seq = .busy ∧ decode (running 0x100).cmd = .error .reservedBits ∧
      decode (running 0x03).cmd = .error .reservedCode ∧ (running 0x03).inputs = [] ∧
      (withInputs [.sequencer] (running 0x03)).inputs = .sequencer :: [] ∧
      (outcome (exec .pkcs7Pad State.reset)).isSome = true := by decide +kernel

theorem witness_StepKeepsTheInvariant :
    (running 0x30).Inv ∧ outcome (step (running 0x30)) = wrote (List.replicate 16 0x10) := by decide +kernel

theorem witness_CmdWriteStartsOrIsDropped :
    (withInputs [.access (.write 0x00C 32 0x100)] keyed).inputs = .access (.write 0x00C 32 0x100) :: [] ∧
      keyed.seq = .idle ∧ (withInputs [.access (.write 0x00C 32 0x100)] (running 0x30)).seq = .busy := by decide +kernel

theorem witness_RunEndsIdle : RunOver keyed := by decide +kernel

/-- An empty output, and one as long as OUT_BUF. -/
theorem witness_SuccessCompletionWritesOutput :
    Config.LegalBufSize keyed.bufSize ∧ ([] : List Byte).length ≤ keyed.bufSize ∧
      (List.replicate 4096 (0x5A : Byte)).length ≤ keyed.bufSize ∧
      4095 < (List.replicate 4096 (0x5A : Byte)).length ∧ ([] : List Byte).length ≤ 4095 ∧ 4095 < keyed.bufSize := by
  decide +kernel

theorem witness_ErrorCompletionZeroesOutput : 4095 < keyed.bufSize := by decide +kernel

theorem witness_EveryCommandCompletesWithinItsFrame :
    outcome (exec .envDecode keyed) = raised .malformedEnvelope ∧ Config.LegalBufSize keyed.bufSize := by decide +kernel

/-- Byte 0 was written, byte 1 was not. -/
theorem witness_InputBytesAreInBufOrFree :
    (holding [0x41] keyed).inBuf.get 0 = some 0x41 ∧ (holding [0x41] keyed).inBuf.get 1 = none ∧ 1 < 2 := by decide +kernel

/-- Every command, and all nine with DONE, WERR, an error code and an old output standing from before. -/
theorem witness_CommandsIgnoreOtherOperands :
    (∀ i ∈ [Instr.envEncode, .envDecode, .aesEcbEnc, .aesEcbDec, .aesCbcEnc, .aesCbcDec, .hmacSha256, .pkcs7Pad, .pkcs7Unpad],
      (outcome (exec i (lenIs 4112 keyed))).isSome = true) ∧
    (∀ i ∈ [Instr.envEncode, .envDecode, .aesEcbEnc, .aesEcbDec, .aesCbcEnc, .aesCbcDec, .hmacSha256, .pkcs7Pad, .pkcs7Unpad],
      outcome (exec i { lenIs 4112 keyed with done := true, werr := true, err := .keyNotLoaded, outLen := 1,
                                              outBuf := Memory.ofOutput [7] }) = raised .lengthError) ∧
    outcome (exec .pkcs7Pad (holding [] keyed)) = wrote (List.replicate 16 0x10) := by decide +kernel

theorem witness_OnlyEncodeDraws :
    (outcome (exec .pkcs7Pad keyed)).isSome = true ∧
      outcome (exec .envEncode { keyed with rngAnswers := [.fail] }) = raised .randomSourceFailure := by decide +kernel

/-- One block, and a whole IN_BUF. -/
theorem witness_RawAesCommandsOutput :
    ∀ n ∈ [16, 4096], Config.LegalBufSize (lenIs n keyed).bufSize ∧ 16 ≤ lenOperand (lenIs n keyed) ∧
      lenOperand (lenIs n keyed) % 16 = 0 ∧ lenOperand (lenIs n keyed) ≤ (lenIs n keyed).bufSize ∧
      (lenIs n keyed).ckWritten = 0xF := by decide +kernel

theorem witness_RawAesCommandsCheckOrder :
    (∀ n ∈ [0, 15, 17, 4112], ¬(16 ≤ lenOperand (lenIs n keyed) ∧ lenOperand (lenIs n keyed) % 16 = 0 ∧
      lenOperand (lenIs n keyed) ≤ (lenIs n keyed).bufSize)) ∧
    (∀ n ∈ [16, 4096], 16 ≤ lenOperand (lenIs n State.reset) ∧ lenOperand (lenIs n State.reset) % 16 = 0 ∧
      lenOperand (lenIs n State.reset) ≤ (lenIs n State.reset).bufSize ∧ (lenIs n State.reset).ckWritten ≠ 0xF) := by
  decide +kernel

/-- 53 and CA are inverse, as are 01 and 01. -/
theorem witness_SboxIsAffineOfInverse : gfMul 0x53 0xCA = 1 ∧ gfMul 0x01 0x01 = 1 := by decide +kernel

theorem witness_HmacCommandOutcome :
    (∀ n ∈ [0, 4096], Config.LegalBufSize (lenIs n keyed).bufSize ∧ lenOperand (lenIs n keyed) ≤ (lenIs n keyed).bufSize ∧
      (lenIs n keyed).ikWritten = 0xFF) ∧
    (Config.LegalBufSize (lenIs 4097 keyed).bufSize ∧ (lenIs 4097 keyed).bufSize < lenOperand (lenIs 4097 keyed)) ∧
    (∀ n ∈ [0, 4096], Config.LegalBufSize (lenIs n State.reset).bufSize ∧
      lenOperand (lenIs n State.reset) ≤ (lenIs n State.reset).bufSize ∧ (lenIs n State.reset).ikWritten ≠ 0xFF) := by
  decide +kernel

theorem witness_ShaPaddingIsLeast :
    2 ^ 64 - 1 < 2 ^ 64 ∧ (List.replicate 55 (0 : Byte)).length = 55 ∧ (List.replicate 56 (0 : Byte)).length = 56 := by
  decide +kernel

theorem witness_TagComparisonIsEquality :
    (List.replicate 32 (0 : Byte)).length = 32 ∧ (List.replicate 31 (0 : Byte) ++ [0x80]).length = 32 := by decide

theorem witness_PadAppendsPBytesOfValueP : (List.replicate 16 (0 : Byte)).length % 16 = 0 := by decide

/-- A padding byte of 0, 17, 1 and 16, with wrong padding bytes before it and with right ones. -/
theorem witness_UnpadChecks :
    (∀ p ∈ [(0x00 : Byte), 0x11, 0x01, 0x10],
      16 ≤ (List.replicate 15 0x41 ++ [p]).length ∧ (List.replicate 15 0x41 ++ [p]).length % 16 = 0 ∧
        (List.replicate 15 0x41 ++ [p])[(List.replicate 15 0x41 ++ [p]).length - 1]? = some p) ∧
    ((0x00 : Byte).toNat = 0 ∧ 16 < (0x11 : Byte).toNat ∧ 1 ≤ (0x01 : Byte).toNat ∧ (0x10 : Byte).toNat ≤ 16) ∧
    (16 - 16 ≤ 14 ∧ 14 < 16 ∧ (List.replicate 15 0x41 ++ [(0x10 : Byte)])[14]? ≠ some 0x10) ∧
    (∀ i, i < 16 → 16 - 16 ≤ i → (List.replicate 16 (0x10 : Byte))[i]? = some 0x10) := by decide +kernel

theorem witness_UnpadUndoesPad : unpad true (List.replicate 16 0x10) = some [] := by decide +kernel

theorem witness_Pkcs7PadOutcome :
    (∀ n ∈ [0, 4095], Config.LegalBufSize (lenIs n keyed).bufSize ∧ lenOperand (lenIs n keyed) ≤ (lenIs n keyed).bufSize - 1) ∧
    Config.LegalBufSize (lenIs 4096 keyed).bufSize ∧ (lenIs 4096 keyed).bufSize - 1 < lenOperand (lenIs 4096 keyed) := by
  decide +kernel

theorem witness_Pkcs7UnpadOutcome :
    (∀ n ∈ [0, 15, 17, 4112], Config.LegalBufSize (lenIs n keyed).bufSize ∧
      ¬(16 ≤ lenOperand (lenIs n keyed) ∧ lenOperand (lenIs n keyed) % 16 = 0 ∧
        lenOperand (lenIs n keyed) ≤ (lenIs n keyed).bufSize)) ∧
    (∀ b ∈ [(0x00 : Byte), 0x10], ∀ s ∈ [holding (List.replicate 16 b) keyed],
      16 ≤ lenOperand s ∧ lenOperand s % 16 = 0 ∧ lenOperand s ≤ s.bufSize ∧ Config.LegalBufSize s.bufSize ∧
        unpad s.strictPad (inputBytes s (lenOperand s)) = if b = 0x10 then some [] else none) := by decide +kernel

/-- The empty plaintext and the longest one. -/
theorem witness_EncodeOutput :
    ∀ n ∈ [0, 4047], Config.LegalBufSize (lenIs n keyed).bufSize ∧ lenOperand (lenIs n keyed) ≤ (lenIs n keyed).bufSize - 49 ∧
      (lenIs n keyed).ckWritten = 0xF ∧ (lenIs n keyed).ikWritten = 0xFF ∧ rngNext (lenIs n keyed) = .ok drawA := by
  decide +kernel

theorem witness_EncodeCheckOrder :
    (lenIs 4048 keyed).bufSize - 49 < lenOperand (lenIs 4048 keyed) ∧
    (∀ s ∈ [lenIs 4047 { keyed with ckWritten := 0x7 }, lenIs 4047 { keyed with ikWritten := 0x7F }],
      lenOperand s ≤ s.bufSize - 49 ∧ (s.ckWritten ≠ 0xF ∨ s.ikWritten ≠ 0xFF)) ∧
    (∀ s ∈ [lenIs 4047 { keyed with rngAnswers := [.fail] }],
      lenOperand s ≤ s.bufSize - 49 ∧ s.ckWritten = 0xF ∧ s.ikWritten = 0xFF ∧ rngNext s = .fail) := by decide +kernel

theorem witness_EncMaxIsTheLargestThatFits :
    Config.LegalBufSize keyed.bufSize ∧ keyed.bufSize = 4096 ∧
      outcome (exec .envEncode (lenIs 4048 keyed)) = raised .lengthError := by decide +kernel

/-- The envelope of V-DEC-9. -/
theorem witness_DecodeOutput :
    ∀ s ∈ [holding env9 keyed], Config.LegalBufSize s.bufSize ∧ 64 ≤ lenOperand s ∧ lenOperand s % 16 = 0 ∧
      lenOperand s ≤ s.bufSize ∧ s.ckWritten = 0xF ∧ s.ikWritten = 0xFF ∧ env9 = inputBytes s (lenOperand s) ∧
      hmac (ikOperand s) (env9.take (lenOperand s - 32)) = env9.drop (lenOperand s - 32) ∧
      unpad s.strictPad (blocksBytes (cbcD (ckOperand s) (blockOf (env9.take 16))
        (blocksOf ((env9.take (lenOperand s - 32)).drop 16)))) = some (List.replicate 13 0x41) := by decide +kernel

theorem witness_DecodeCheckOrder :
    (∀ n ∈ [0, 1, 47, 48, 49, 63, 65], ¬(64 ≤ lenOperand (lenIs n keyed) ∧ lenOperand (lenIs n keyed) % 16 = 0)) ∧
    (∀ s ∈ [lenIs 4112 keyed], 64 ≤ lenOperand s ∧ lenOperand s % 16 = 0 ∧ s.bufSize < lenOperand s) ∧
    (∀ s ∈ [lenIs 64 State.reset, lenIs 4096 State.reset], 64 ≤ lenOperand s ∧ lenOperand s % 16 = 0 ∧
      lenOperand s ≤ s.bufSize ∧ s.ckWritten ≠ 0xF) ∧
    (∀ s ∈ [holding (List.replicate 64 0) keyed], 64 ≤ lenOperand s ∧ lenOperand s % 16 = 0 ∧ lenOperand s ≤ s.bufSize ∧
      s.ckWritten = 0xF ∧ s.ikWritten = 0xFF ∧
      hmac (ikOperand s) ((inputBytes s 64).take (lenOperand s - 32)) ≠ (inputBytes s 64).drop (lenOperand s - 32)) ∧
    (∀ s ∈ [holding env9 { keyed with strictPad := true }], 64 ≤ lenOperand s ∧ lenOperand s % 16 = 0 ∧
      lenOperand s ≤ s.bufSize ∧ s.ckWritten = 0xF ∧ s.ikWritten = 0xFF ∧ env9 = inputBytes s (lenOperand s) ∧
      hmac (ikOperand s) (env9.take (lenOperand s - 32)) = env9.drop (lenOperand s - 32) ∧
      unpad s.strictPad (blocksBytes (cbcD (ckOperand s) (blockOf (env9.take 16))
        (blocksOf ((env9.take (lenOperand s - 32)).drop 16)))) = none) := by decide +kernel

/-- V-DEC-7. -/
theorem witness_IntegrityFailureHidesDecryption :
    outcome (exec .envDecode (holding (List.replicate 64 0) keyed)) = raised .integrityFailure := by decide +kernel

/-- The plaintext of V-ENC-5, held by the state that encodes it, and its envelope, held by the states that decode it. -/
def plain5 : List Byte := List.replicate 15 0x41
def encoding5 : State := holding plain5 keyed
def decoding5 : State := holding env5 keyed
def decoding5ZeroKey : State := holding env5 { keyed with ikey := Vector.replicate 8 0 }

theorem witness_DecodeOfEncodeRoundTrip :
    Config.LegalBufSize encoding5.bufSize ∧ HoldsInput encoding5 plain5 ∧ plain5.length ≤ encoding5.bufSize - 49 ∧
      encoding5.ckWritten = 0xF ∧ encoding5.ikWritten = 0xFF ∧ rngNext encoding5 = .ok drawA ∧
      outcome (exec .envEncode encoding5) = some (.ok, decoding5.len, Memory.ofOutput env5) ∧
      decoding5.bufSize = encoding5.bufSize ∧ decoding5.ckey = encoding5.ckey ∧ decoding5.ikey = encoding5.ikey ∧
      decoding5.ckWritten = 0xF ∧ decoding5.ikWritten = 0xFF ∧ decoding5.len = 64 ∧
      (∀ i, i < 64 → decoding5.inBuf.get i = (Memory.ofOutput env5).get i) := by decide +kernel

theorem witness_WrongIntegrityKeyIsRejected :
    Config.LegalBufSize encoding5.bufSize ∧ HoldsInput encoding5 plain5 ∧ plain5.length ≤ encoding5.bufSize - 49 ∧
      encoding5.ckWritten = 0xF ∧ encoding5.ikWritten = 0xFF ∧ rngNext encoding5 = .ok drawA ∧
      outcome (exec .envEncode encoding5) = some (.ok, decoding5ZeroKey.len, Memory.ofOutput env5) ∧
      decoding5ZeroKey.bufSize = encoding5.bufSize ∧ decoding5ZeroKey.ckWritten = 0xF ∧
      decoding5ZeroKey.ikWritten = 0xFF ∧ decoding5ZeroKey.len = 64 ∧
      (∀ i, i < 64 → decoding5ZeroKey.inBuf.get i = (Memory.ofOutput env5).get i) ∧
      hmac (ikOperand decoding5ZeroKey)
          ((blockOfDraw drawA).bytes ++ envCiphertext (ckOperand encoding5) (blockOfDraw drawA) plain5) ≠
        hmac (ikOperand encoding5)
          ((blockOfDraw drawA).bytes ++ envCiphertext (ckOperand encoding5) (blockOfDraw drawA) plain5) := by
  decide +kernel

/-- The first and the last offset of each mapped region, and the unmapped ones beside them. -/
theorem witness_MappedOffsetsAnswerOk :
    Config.LegalBufSize keyed.bufSize ∧ keyed.bufSize = 4096 ∧
    (∀ a ∈ ([0x000, 0x018, 0x020, 0x02C, 0x040, 0x06C, 0x1000, 0x1FFC, 0x2000, 0x2FFC] : List Nat),
      (BitVec.ofNat 14 a).toNat = a ∧
      a % 4 = 0 ∧ (a < 0x01C ∨ (0x020 ≤ a ∧ a < 0x030) ∨ (0x040 ≤ a ∧ a < 0x070) ∨
        (0x1000 ≤ a ∧ a < 0x1000 + 4096) ∨ (0x2000 ≤ a ∧ a < 0x2000 + 4096))) ∧
    (∀ a ∈ ([0x01C, 0x030, 0x03C, 0x070, 0x0FFC, 0x1002, 0x3000, 0x3FFC] : List Nat),
      (BitVec.ofNat 14 a).toNat = a ∧
      ¬(a % 4 = 0 ∧ (a < 0x01C ∨ (0x020 ≤ a ∧ a < 0x030) ∨ (0x040 ≤ a ∧ a < 0x070) ∨
        (0x1000 ≤ a ∧ a < 0x1000 + 4096) ∨
        (0x2000 ≤ a ∧ a < 0x2000 + 4096)))) := by decide +kernel

theorem witness_KeyRegistersReadZero :
    (0x05C : Offset) ∈ ([0x020, 0x024, 0x028, 0x02C, 0x040, 0x044, 0x048, 0x04C, 0x050, 0x054, 0x058, 0x05C] : List Offset) ∧
      ikOperand keyed ≠ List.replicate 32 0 := by decide +kernel

theorem witness_ReadOnlyLocationsIgnoreWrites :
    (0x018 : Offset) ∈ ([0x000, 0x004, 0x018] : List Offset) ∧
    (∀ a ∈ ([0x2000, 0x2FFC] : List Nat), (BitVec.ofNat 14 a).toNat = a ∧ a % 4 = 0 ∧ 0x2000 ≤ a ∧ a < 0x2000 + 4096) ∧
    keyed.bufSize = 4096 ∧ keyed.seq = .idle ∧
    (hostAccess (.write 0x010 32 0) { keyed with werr := true }).werr = true := by decide +kernel

theorem witness_CtrlWrite : keyed.seq = .idle ∧ (running 0x30).seq = .busy := by decide +kernel

/-- A step that keeps KEY_LOCK and one that clears it. -/
theorem witness_KeyLockClearedOnlyByReset :
    (withInputs [.reset] { keyed with keyLock := true }).keyLock = true ∧
      (outcome (step (withInputs [.reset] { keyed with keyLock := true }))).isSome = true ∧
      (outcome (step (withInputs [hostWR 0x008 0] { keyed with keyLock := true }))).isSome = true := by decide +kernel

theorem witness_KeyLockDropsKeyWrites :
    ({ keyed with keyLock := true } : State).keyLock = true ∧
      (0x020 : Offset) ∈ ([0x020, 0x024, 0x028, 0x02C, 0x040, 0x044, 0x048, 0x04C, 0x050, 0x054, 0x058, 0x05C] : List Offset) ∧
      (withInputs [hostWR 0x020 5] { keyed with keyLock := true }).inputs.head? ≠ some .reset ∧
      (outcome (step (withInputs [hostWR 0x020 5] { keyed with keyLock := true }))).isSome = true := by decide +kernel

theorem witness_KeyWriteSetsWordAndLoadBit : keyed.seq = .idle ∧ keyed.keyLock = false ∧ (3 : Fin 4) ≠ 0 ∧ (7 : Fin 8) ≠ 0 := by
  decide +kernel

theorem witness_LenAndIvReadBack : keyed.seq = .idle := by decide +kernel

/-- The first and the last word of IN_BUF specified, and a state in `busy` with the invariant. -/
theorem witness_RegisterReads :
    (∀ k ∈ [0, 1023], 4 * k < keyed.bufSize ∧ (∀ j, j < 4 →
      ({ keyed with inBuf := (keyed.inBuf.setWord 0 0x04030201).setWord 1023 0x04030201 } : State).inBuf.get (4 * k + j) =
        some (BitVec.ofNat 8 (j + 1)))) ∧
    Config.LegalBufSize keyed.bufSize ∧ (running 0x30).Inv ∧ (running 0x30).seq = .busy := by decide +kernel

/-- The first and the last word. -/
theorem witness_InBufWordWrite :
    (holding [0x41] keyed).Inv ∧ (holding [0x41] keyed).seq = .idle ∧ 4 * 0 < keyed.bufSize ∧ 4 * 1023 < keyed.bufSize := by
  decide +kernel

theorem witness_OutBufWordRead :
    Config.LegalBufSize keyed.bufSize ∧ 4 * 1023 < keyed.bufSize ∧ keyed.seq = .idle ∧ (running 0x30).seq = .busy ∧
    (∀ j, j < 4 → ({ keyed with outBuf := Memory.ofOutput [1, 2, 3, 4] } : State).outBuf.get j = some (BitVec.ofNat 8 (j + 1))) := by
  decide +kernel

theorem witness_IdentificationRegistersRead : Config.LegalBufSize 64 ∧ Config.LegalBufSize 4096 := by decide

theorem witness_BusyWriteBarrier :
    (running 0x30).seq = .busy ∧ Config.LegalBufSize (running 0x30).bufSize ∧ (running 0x30).bufSize = 4096 ∧
    (∀ a ∈ ([0x008, 0x00C, 0x014, 0x020, 0x02C, 0x040, 0x06C, 0x1000, 0x1FFC] : List Nat),
      (BitVec.ofNat 14 a).toNat = a ∧ a % 4 = 0 ∧
      (a = 0x008 ∨ a = 0x00C ∨ a = 0x014 ∨ (0x020 ≤ a ∧ a < 0x030) ∨
        (0x040 ≤ a ∧ a < 0x070) ∨ (0x1000 ≤ a ∧ a < 0x1000 + 4096))) ∧
    (∀ a ∈ ([0x000, 0x004, 0x018, 0x2000, 0x2FFC] : List Nat),
      (BitVec.ofNat 14 a).toNat = a ∧ a % 4 = 0 ∧
      (a = 0x000 ∨ a = 0x004 ∨ a = 0x018 ∨
        (0x2000 ≤ a ∧ a < 0x2000 + 4096))) := by decide +kernel

theorem witness_InterruptOutput :
    (outcome (exec .pkcs7Pad { keyed with irqEn := true })).isSome = true ∧ keyed.seq = .idle ∧
      (0 : Word).getLsbD 0 = false := by decide +kernel

theorem witness_ResetInputRestoresEveryRegister :
    (withInputs [.reset, .sequencer] (running 0x30)).inputs = .reset :: [.sequencer] := by decide +kernel

/-- Nothing after the reset, a turn after it, and a turn and an access other than a CMD write. -/
theorem witness_ResetAbandonsTheCommand :
    (running 0x30).seq = .busy ∧
    (∀ rest ∈ [[], [.sequencer], [.sequencer, hostWR 0x010 6, .reset]],
      (withInputs (.reset :: rest) (running 0x30)).inputs = .reset :: rest) ∧
    (∀ bits v, Input.access (.write 0x00C bits v) ∉ [.sequencer, hostWR 0x010 6, .reset]) ∧
    (outcome (Sys2Proof.core.run 4 (withInputs [.reset, .sequencer, hostWR 0x010 6, .reset] (running 0x30)))).isSome = true := by
  refine ⟨by decide +kernel, by decide +kernel, ?_, by decide +kernel⟩
  intro bits v
  simp [hostWR]

theorem witness_LoadPlacesTheInput :
    keyed.Inv ∧ keyed.seq = .idle ∧ ([] : List Byte).length ≤ keyed.bufSize ∧
      (List.replicate 4096 (0 : Byte)).length ≤ keyed.bufSize := by decide +kernel

theorem witness_SetKeysLoadTheKeys :
    keyed.seq = .idle ∧ keyed.keyLock = false ∧ (List.replicate 16 (0 : Byte)).length = 16 ∧
      (List.replicate 32 (0 : Byte)).length = 32 := by decide +kernel

end Sys2Proof.Tests
end

section
/-! The laws of the field product in its first factor, where it is read bit by bit (00_scope.md R17; 40_aes.md R106). -/

namespace Sys2Proof.Machine

/-! ## Additivity in the first factor -/

theorem bitTerm_xor (p q : Bool) (x : Byte) :
    (if (p ^^ q) = true then x else 0) = (if p = true then x else 0) ^^^ (if q = true then x else 0) := by
  cases p <;> cases q <;> simp

theorem gfPartial_xor_left (a b c : Byte) (n : Nat) : gfPartial (a ^^^ b) c n = gfPartial a c n ^^^ gfPartial b c n := by
  induction n with
  | zero => simp [gfPartial]
  | succ n ih =>
    simp only [gfPartial, ih, BitVec.getLsbD_xor, bitTerm_xor]
    ac_rfl

theorem gfMul_xor_left (a b c : Byte) : gfMul (a ^^^ b) c = gfMul a c ^^^ gfMul b c := gfPartial_xor_left a b c 8

theorem gfMul_zero_left (b : Byte) : gfMul 0 b = 0 := by simp [gfMul, gfPartial]

/-! ## The product by x -/

theorem xtime_bitTerm (p : Bool) (x : Byte) :
    xtime (if p = true then x else 0) = if p = true then xtime x else 0 := by
  cases p <;> simp [xtime]

/-- Shifting the first factor up by one bit turns each term x^n of it into x^(n+1). -/
theorem gfPartial_shiftLeft_one (a b : Byte) (n : Nat) (hn : n < 8) :
    gfPartial (a <<< 1) b (n + 1) = xtime (gfPartial a b n) := by
  induction n with
  | zero => simp [gfPartial, xtime]
  | succ n ih =>
    have hbit : (a <<< 1).getLsbD (n + 1) = a.getLsbD n := by
      simp [hn, BitVec.getLsbD_eq_getElem (Nat.lt_of_succ_lt hn)]
    rw [gfPartial, ih (by omega), hbit, gfPartial, xtime_xor, xtime_bitTerm, xtimes]

/-- The reduction of R17: x^8 is 0x1B. -/
theorem xtimes_eight : ∀ b : Byte, xtimes 8 b = gfMul 0x1B b := by decide +kernel

/-- The shift keeps the terms below bit 7, each times x; bit 7 becomes x^8, the term that `xtime` reduces. -/
theorem gfMul_xtime_left (a b : Byte) : gfMul (xtime a) b = xtime (gfMul a b) := by
  have hshift : gfMul (a <<< 1) b = xtime (gfPartial a b 7) := gfPartial_shiftLeft_one a b 7 (by decide)
  have hmul : gfMul a b = gfPartial a b 7 ^^^ (if a.getLsbD 7 then xtimes 7 b else 0) := rfl
  rw [xtime, gfMul_xor_left, hshift, hmul, xtime_xor, xtime_bitTerm]
  cases a.getLsbD 7 with
  | false => simp only [Bool.false_eq_true, if_false, gfMul_zero_left]
  | true => simp only [if_true, ← xtimes_eight, xtimes]

/-! ## The products by 01, 02 and 03 -/

theorem gfMul_one_left (a : Byte) : gfMul 0x01 a = a := by simp [gfMul, gfPartial, xtimes]

theorem gfMul_two_left (a : Byte) : gfMul 0x02 a = xtime a :=
  calc gfMul 0x02 a
    _ = gfMul (xtime 0x01) a := rfl
    _ = xtime a := by rw [gfMul_xtime_left, gfMul_one_left]

theorem gfMul_three_left (a : Byte) : gfMul 0x03 a = xtime a ^^^ a :=
  calc gfMul 0x03 a
    _ = gfMul (0x02 ^^^ 0x01) a := rfl
    _ = xtime a ^^^ a := by rw [gfMul_xor_left, gfMul_two_left, gfMul_one_left]

/-- Settles O21: additivity term by term, the reduction x^8 = 0x1B behind the product by x, and the products by 02 and 03 from
these two and the unit. -/
theorem fieldProductLaws : Obligations.FieldProductLaws :=
  ⟨gfMul_xor_left, gfMul_xtime_left, fun a => ⟨gfMul_one_left a, gfMul_two_left a, gfMul_three_left a⟩⟩

end Sys2Proof.Machine
end

section
/-! What a write guard and a step can do, as rules for proving a property of the state they lead to. -/

namespace Sys2Proof.Machine

/-! ## The write guards -/

/-- A guarded write is dropped and sets WERR, or has its effect in `idle` (20_memory.md R66). -/
theorem unlessBusy_keeps {P : State → Prop} {effect : State → State} {s : State} (hdrop : P { s with werr := true })
    (heffect : s.seq = .idle → P (effect s)) : P (unlessBusy effect s) := by
  cases hs : s.seq with
  | idle => rw [unlessBusy_idle hs]; exact heffect hs
  | busy => rw [unlessBusy_busy hs]; exact hdrop

/-- A key write is dropped and sets WERR, or has its effect without KEY_LOCK (10_state.md R27). -/
theorem unlessLocked_keeps {P : State → Prop} {effect : State → State} {s : State} (hdrop : P { s with werr := true })
    (heffect : s.keyLock = false → P (effect s)) : P (unlessLocked effect s) := by
  cases hk : s.keyLock with
  | false => rw [unlessLocked_unlocked hk]; exact heffect hk
  | true => rw [unlessLocked_locked hk]; exact hdrop

/-! ## The effects of a step -/

/-- What one step from s can lead to. `rest` is the event list it leaves. -/
inductive StepEffect (s : State) : State → Prop
  /-- A turn in `idle`, a `buserr` or a read: at most the events, the count of free values and the answer move. -/
  | still (rest : List Input) (f : Nat) (r : Option BusResponse) :
      StepEffect s { s with inputs := rest, freeCount := f, response := r }
  /-- An error completion. -/
  | raised (rest : List Input) (e : ErrCode) (u : State) (hbusy : s.seq = .busy)
      (hu : Consumed { s with inputs := rest } u) (he : e ≠ .ok) : StepEffect s (raiseError e u)
  /-- A successful completion. -/
  | finished (rest : List Input) (out : List Byte) (u : State) (hbusy : s.seq = .busy)
      (hu : Consumed { s with inputs := rest } u)
      (hout : Config.LegalBufSize s.bufSize → out.length ≤ s.bufSize) : StepEffect s (finish out u)
  /-- A write answered `ok`. -/
  | written (rest : List Input) (addr : Offset) (l : Location) (v : Word) (hl : locate s.bufSize addr = some l) :
      StepEffect s { writeLocation l v { s with inputs := rest } with response := some .ok }
  /-- The reset input. -/
  | reset (rest : List Input) (hs : s.inputs = .reset :: rest) : StepEffect s (resetLine { s with inputs := rest })

theorem sequencerStep_effect {s t : State} (rest : List Input) (h : sequencerStep { s with inputs := rest } = .next t) :
    StepEffect s t := by
  rcases sequencerStep_cases { s with inputs := rest } with ⟨_, hidle⟩ | ⟨hbusy, u, hu, ⟨e, he, hr⟩ | ⟨out, hout, hr⟩⟩
  · cases hidle.symm.trans h; exact .still rest s.freeCount s.response
  · cases hr.symm.trans h; exact .raised rest e u hbusy hu he
  · cases hr.symm.trans h; exact .finished rest out u hbusy hu hout

theorem hostAccess_effect (s : State) (rest : List Input) (a : BusAccess) :
    StepEffect s (hostAccess a { s with inputs := rest }) := by
  rcases hostAccess_cases a { s with inputs := rest } with h | ⟨_, l, _, _, h⟩ | ⟨addr, v, l, _, hl, h⟩
  · rw [h]; exact .still rest s.freeCount _
  · rw [h, readLocation_state]; exact .still rest _ _
  · rw [h]; exact .written rest addr l v hl

/-- The inversion of a step: its next state is reached by one of the effects. -/
theorem step_effect {s t : State} (h : step s = .next t) : StepEffect s t := by
  rcases step_cases s with ⟨hi, hs⟩ | ⟨rest, _, hs⟩ | ⟨a, rest, _, hs⟩ | ⟨rest, hi, hs⟩ <;> rw [hs] at h
  · exact sequencerStep_effect s.inputs h
  · exact sequencerStep_effect rest h
  · cases h; exact hostAccess_effect s rest a
  · cases h; exact .reset rest hi

theorem step_of_reset {s : State} {rest : List Input} (h : s.inputs = .reset :: rest) :
    step s = .next (resetLine { s with inputs := rest }) := by
  simp only [step, h]

end Sys2Proof.Machine
end


section
/-! One word of a key register file and its load bit (10_state.md R36, R45), for files of any size. -/

namespace Sys2Proof.Machine

/-- Setting load bit i makes it 1 and leaves every other load bit. -/
theorem getLsbD_or_one_shiftLeft {n : Nat} (w : BitVec n) (i j : Fin n) :
    (w ||| (1#n <<< i.val)).getLsbD j.val = (w.getLsbD j.val || decide (j = i)) := by
  rw [BitVec.getLsbD_or, BitVec.getLsbD_shiftLeft, BitVec.getLsbD_one]
  grind

theorem getElem_set_fin {n : Nat} (keys : Vector Word n) (i j : Fin n) (v : Word) :
    (keys.set i v)[j] = if j = i then v else keys[j] := by
  simp [Vector.getElem_set, Fin.ext_iff, eq_comm]

/-- A key write leaves every unwritten word at its reset value. -/
theorem unwritten_zero_set {n : Nat} {keys : Vector Word n} {w : BitVec n}
    (h : ∀ j : Fin n, w.getLsbD j.val = false → keys[j] = 0) (i : Fin n) (v : Word) :
    ∀ j : Fin n, (w ||| (1#n <<< i.val)).getLsbD j.val = false → (keys.set i v)[j] = 0 := by
  intro j hj
  rw [getLsbD_or_one_shiftLeft, Bool.or_eq_false_iff, decide_eq_false_iff_not] at hj
  obtain ⟨hbit, hji⟩ := hj
  rw [getElem_set_fin, if_neg hji, h j hbit]

/-- A key write sets its word and its load bit, and no other of either. -/
theorem set_word_and_bit {n : Nat} (keys : Vector Word n) (w : BitVec n) (i : Fin n) (v : Word) :
    (keys.set i v)[i] = v ∧ (w ||| (1#n <<< i.val)).getLsbD i.val = true ∧
      ∀ j : Fin n, j ≠ i →
        (keys.set i v)[j] = keys[j] ∧ (w ||| (1#n <<< i.val)).getLsbD j.val = w.getLsbD j.val := by
  simp only [getElem_set_fin, getLsbD_or_one_shiftLeft]
  exact ⟨by simp, by simp, fun j hji => by simp [hji]⟩

end Sys2Proof.Machine
end

section
/-! The invariant of AENV: each effect of a step keeps it. -/

namespace Sys2Proof.Machine

/-! ## Completions -/

theorem Consumed.inv {s u : State} (hu : Consumed s u) (h : s.Inv) : u.Inv := by
  rw [hu]; exact h

theorem inv_finish {s : State} {out : List Byte} (h : s.Inv) (hout : out.length ≤ s.bufSize) : (finish out s).Inv := by
  obtain ⟨hsize, hin, -, -, -, -, -, hkeys⟩ := h
  have hlen : (finish out s).outLen.toNat = out.length := by
    rw [finish_outLen, BitVec.toNat_ofNat, Nat.mod_eq_of_lt (by omega)]
  have hbuf : (finish out s).OutBufWf := ⟨Memory.wf_ofOutput out, Memory.below_ofOutput hout, .inr rfl⟩
  refine ⟨hsize, hin, hbuf, hlen ▸ hout, by simp, fun _ => ?_, by simp, hkeys⟩
  exact Memory.below_ofOutput (Nat.le_of_eq hlen.symm)

theorem inv_raiseError {s : State} (e : ErrCode) (h : s.Inv) : (raiseError e s).Inv := by
  obtain ⟨hsize, hin, -, -, -, -, -, hkeys⟩ := h
  exact ⟨hsize, hin, ⟨Memory.wf_ofOutput [], rfl, .inr rfl⟩, by simp, by simp, fun _ => rfl, fun _ => ⟨rfl, rfl⟩, hkeys⟩

/-! ## Writes -/

theorem inv_startCommand {s : State} (v : Word) (h : s.Inv) : (startCommand v s).Inv := by
  obtain ⟨hsize, hin, hout, -, -, -, -, hkeys⟩ := h
  exact ⟨hsize, hin, hout, by simp, by simp, by simp, by simp, hkeys⟩

theorem inv_writeStatus {s : State} (v : Word) (h : s.Inv) : (writeStatus v s).Inv := by
  obtain ⟨hsize, hin, hout, hlen, hbusy, hrest⟩ := h
  refine ⟨hsize, hin, hout, hlen, fun hs => ?_, hrest⟩
  obtain ⟨hdone, herr, hlen0⟩ := hbusy hs
  exact ⟨by simp [hdone], herr, hlen0⟩

theorem inv_writeCkey {s : State} (i : Fin 4) (v : Word) (h : s.Inv) : (writeCkey i v s).Inv := by
  obtain ⟨hsize, hin, hout, hlen, hbusy, htail, herr, hck, hik⟩ := h
  exact ⟨hsize, hin, hout, hlen, hbusy, htail, herr, unwritten_zero_set hck i v, hik⟩

theorem inv_writeIkey {s : State} (i : Fin 8) (v : Word) (h : s.Inv) : (writeIkey i v s).Inv := by
  obtain ⟨hsize, hin, hout, hlen, hbusy, htail, herr, hck, hik⟩ := h
  exact ⟨hsize, hin, hout, hlen, hbusy, htail, herr, hck, unwritten_zero_set hik i v⟩

theorem inv_writeInBuf {s : State} {k : Nat} (v : Word) (h : s.Inv) (hk : 4 * k < s.bufSize) :
    State.Inv { s with inBuf := s.inBuf.setWord k v } := by
  obtain ⟨hsize, ⟨hwf, hbelow, hfill⟩, hrest⟩ := h
  have hin : 4 * k + 3 < s.bufSize := by omega
  exact ⟨hsize, ⟨Memory.wf_setWord hwf k v, Memory.below_setWord hbelow hin v, hfill⟩, hrest⟩

/-- A write to a location that an offset names keeps the invariant. -/
theorem inv_writeLocation {s : State} {addr : Offset} {l : Location} (v : Word) (h : s.Inv)
    (hl : locate s.bufSize addr = some l) : (writeLocation l v s).Inv := by
  cases l with
  | id | param | outLen | outWord => exact h
  | status => exact inv_writeStatus v h
  | ctrl | len | iv => exact unlessBusy_keeps (P := State.Inv) h fun _ => h
  | cmd => exact unlessBusy_keeps (P := State.Inv) h fun _ => inv_startCommand v h
  | ckey i => exact unlessBusy_keeps (P := State.Inv) h fun _ => unlessLocked_keeps (P := State.Inv) h fun _ => inv_writeCkey i v h
  | ikey i => exact unlessBusy_keeps (P := State.Inv) h fun _ => unlessLocked_keeps (P := State.Inv) h fun _ => inv_writeIkey i v h
  | inWord k => exact unlessBusy_keeps (P := State.Inv) h fun _ => inv_writeInBuf v h (locate_inWord hl).2

/-! ## Reset and the step -/

theorem inv_resetLine {s : State} (h : s.Inv) : (resetLine s).Inv := by
  obtain ⟨hsize, -⟩ := h
  refine ⟨hsize, ⟨State.reset_inBuf_wf, rfl, rfl⟩, ⟨State.reset_outBuf_wf, rfl, .inl ⟨rfl, rfl⟩⟩, Nat.zero_le _, ?_, ?_, ?_, ?_, ?_⟩
  · intro hs; cases hs
  · intro _; rfl
  · intro herr; exact absurd rfl herr
  · intro i _; simp [State.reset]
  · intro i _; simp [State.reset]

/-- Settles O7: the invariant reads none of the fields that a turn, a read or a `buserr` moves; completions, writes and the reset
each set the parts of it they touch. -/
theorem stepKeepsTheInvariant : Obligations.StepKeepsTheInvariant := by
  intro s t h hstep
  cases step_effect hstep with
  | still => exact h
  | raised rest e u _ hu _ => exact inv_raiseError e (hu.inv h)
  | finished rest out u _ hu hout =>
    have hsize : u.bufSize = s.bufSize := by rw [hu]
    exact inv_finish (hu.inv h) (hsize ▸ hout h.1)
  | written rest addr l v hl => exact inv_writeLocation (s := { s with inputs := rest }) v h hl
  | reset rest _ => exact inv_resetLine (s := { s with inputs := rest }) h

end Sys2Proof.Machine
end

section
/-! The registers at the host port: what a write to each does and what a read of each returns (10_state.md R21 to R37). -/

namespace Sys2Proof.Machine

/-! ## Offsets of the register files -/

theorem registerAt_ckey : ∀ i : Fin 4, registerAt (BitVec.ofNat 14 (0x020 + 4 * i.val)).toNat = some (.ckey i) := by decide

theorem registerAt_ikey : ∀ i : Fin 8, registerAt (BitVec.ofNat 14 (0x040 + 4 * i.val)).toNat = some (.ikey i) := by decide

theorem registerAt_iv : ∀ i : Fin 4, registerAt (BitVec.ofNat 14 (0x060 + 4 * i.val)).toNat = some (.iv i) := by decide

/-! ## Writes and reads at a register's offset -/

/-- An access at a register's offset needs no bound on BUF_SIZE. -/
theorem hostAccess_write_register {addr : Offset} {l : Location} (h : registerAt addr.toNat = some l) (v : Word) (s : State) :
    hostAccess (.write addr 32 v) s = { writeLocation l v s with response := some .ok } :=
  hostAccess_write (locate_register h s.bufSize) v

theorem hostAccess_read_register {addr : Offset} {l : Location} (h : registerAt addr.toNat = some l) (s : State) :
    hostAccess (.read addr 32) s = { (readLocation l s).2 with response := some (.okData (readLocation l s).1) } :=
  hostAccess_read (locate_register h s.bufSize)

/-- A key write in `idle` and unlocked passes both guards. -/
theorem keyWrite_takesEffect {s : State} (hidle : s.seq = .idle) (hlock : s.keyLock = false) (effect : State → State) :
    unlessBusy (unlessLocked effect) s = effect s := by
  rw [unlessBusy_idle hidle, unlessLocked_unlocked hlock]

/-- Settles O44, by the busy write barrier's two cases. -/
theorem ctrlWrite : Obligations.CtrlWrite := by
  intro s v
  rw [hostAccess_write_register (l := .ctrl) rfl, writeLocation]
  refine ⟨fun hidle => ?_, fun hbusy => ?_⟩
  · rw [unlessBusy_idle hidle]; rfl
  · rw [unlessBusy_busy hbusy]

/-- Settles O47: a STATUS write has no guard, and each sticky field is and-ed with its bit's complement. -/
theorem statusWriteClears : Obligations.StatusWriteClears := by
  intro s v
  have hclear : ∀ b c : Bool, (b && !c) = if c then false else b := by decide
  rw [hostAccess_write_register (l := .status) rfl, writeLocation, writeStatus, hclear, hclear]

/-- Settles O48: the two register files are cases of one rule about a word and its load bit. -/
theorem keyWriteSetsWordAndLoadBit : Obligations.KeyWriteSetsWordAndLoadBit := by
  intro s v hidle hlock
  refine ⟨fun i => ⟨_, rfl, ?_⟩, fun i => ⟨_, rfl, ?_⟩⟩
  · rw [hostAccess_write_register (registerAt_ckey i), writeLocation, keyWrite_takesEffect hidle hlock]
    obtain ⟨hword, hbit, hothers⟩ := set_word_and_bit s.ckey s.ckWritten i v
    exact ⟨hword, hbit, hothers, rfl⟩
  · rw [hostAccess_write_register (registerAt_ikey i), writeLocation, keyWrite_takesEffect hidle hlock]
    obtain ⟨hword, hbit, hothers⟩ := set_word_and_bit s.ikey s.ikWritten i v
    exact ⟨hword, hbit, hothers, rfl⟩

/-- Settles O49: the reads hold of every state, so of the state a write leaves. -/
theorem lenAndIvReadBack : Obligations.LenAndIvReadBack := by
  intro s v
  have hlen : ∀ t, hostAccess (.read 0x014 32) t = { t with response := some (.okData t.len) } :=
    hostAccess_read_register (l := .len) rfl
  have hiv : ∀ (i : Fin 4) t, hostAccess (.read (BitVec.ofNat 14 (0x060 + 4 * i.val)) 32) t =
      { t with response := some (.okData t.iv[i]) } := fun i => hostAccess_read_register (registerAt_iv i)
  refine ⟨hlen s, fun i => hiv i s, fun hidle => ?_⟩
  have hlenWrite : hostAccess (.write 0x014 32 v) s = { s with len := v, response := some .ok } := by
    rw [hostAccess_write_register (l := .len) rfl, writeLocation, unlessBusy_idle hidle]
  refine ⟨by rw [hlen, hlenWrite], hlenWrite, fun i => ?_⟩
  have hivWrite : hostAccess (.write (BitVec.ofNat 14 (0x060 + 4 * i.val)) 32 v) s =
      { s with iv := s.iv.set i v, response := some .ok } := by
    rw [hostAccess_write_register (registerAt_iv i), writeLocation, unlessBusy_idle hidle, writeIv]
  exact ⟨by rw [hiv, hivWrite]; simp, hivWrite⟩

/-! ## The fields of the register words -/

theorem getLsbD_bit (b : Bool) (j : Nat) : (bit b).getLsbD j = (decide (j = 0) && b) := by
  simp [bit, BitVec.getLsbD_ofBool]

theorem ctrlWord_fields (s : State) :
    (ctrlWord s).getLsbD 0 = s.irqEn ∧ (ctrlWord s).getLsbD 1 = s.strictPad ∧ (ctrlWord s).getLsbD 2 = s.keyLock ∧
      ∀ j, 3 ≤ j → (ctrlWord s).getLsbD j = false := by
  simp only [ctrlWord, BitVec.getLsbD_append, getLsbD_bit]
  refine ⟨by simp, by simp, by simp, fun j hj => ?_⟩
  simp (disch := omega) only [if_neg, BitVec.getLsbD_zero]

theorem paramWord_fields {s : State} (h : s.bufSize < 2 ^ 16) :
    ((paramWord s).extractLsb' 0 16).toNat = s.bufSize ∧ (paramWord s).extractLsb' 16 16 = 0 := by
  have hlow : (paramWord s).extractLsb' 0 16 = BitVec.ofNat 16 s.bufSize := BitVec.extractLsb'_append_eq_right
  refine ⟨?_, BitVec.extractLsb'_append_eq_left⟩
  rw [hlow, BitVec.toNat_ofNat, Nat.mod_eq_of_lt h]

/-- Every load bit is set where the file is all ones. -/
theorem eq_allOnes_iff_getLsbD {n : Nat} (w : BitVec n) : w = BitVec.allOnes n ↔ ∀ i : Fin n, w.getLsbD i.val = true := by
  refine ⟨fun h i => by simp [h], fun h => BitVec.eq_of_getLsbD_eq fun i hi => ?_⟩
  simpa [hi] using h ⟨i, hi⟩

theorem ckLoaded_iff (s : State) : ckLoaded s = true ↔ ∀ i : Fin 4, s.ckWritten.getLsbD i.val = true :=
  beq_iff_eq.trans (eq_allOnes_iff_getLsbD s.ckWritten)

theorem ikLoaded_iff (s : State) : ikLoaded s = true ↔ ∀ i : Fin 8, s.ikWritten.getLsbD i.val = true :=
  beq_iff_eq.trans (eq_allOnes_iff_getLsbD s.ikWritten)

theorem busy_iff (s : State) : busy s = true ↔ s.seq = .busy := beq_iff_eq

/-- The one-bit fields of STATUS and its reserved bits (R29). -/
theorem statusWord_bits (s : State) :
    (statusWord s).getLsbD 0 = busy s ∧ (statusWord s).getLsbD 1 = s.done ∧ (statusWord s).getLsbD 2 = s.werr ∧
      (statusWord s).getLsbD 3 = false ∧ (statusWord s).getLsbD 8 = ckLoaded s ∧ (statusWord s).getLsbD 9 = ikLoaded s ∧
      ∀ j, 10 ≤ j → (statusWord s).getLsbD j = false := by
  simp only [statusWord, BitVec.getLsbD_append, getLsbD_bit]
  refine ⟨by simp, by simp, by simp, by simp, by simp, by simp, fun j hj => ?_⟩
  simp (disch := omega) only [if_neg, BitVec.getLsbD_zero]

/-- The ERR field of STATUS (R29). -/
theorem statusWord_err (s : State) : (statusWord s).extractLsb' 4 4 = errNumber s.err := by
  refine BitVec.eq_of_getLsbD_eq fun i hi => ?_
  simp only [statusWord, BitVec.getLsbD_extractLsb', BitVec.getLsbD_append]
  simp [hi]

theorem hostAccess_read_status (s : State) :
    hostAccess (.read 0x010 32) s = { s with response := some (.okData (statusWord s)) } :=
  hostAccess_read_register (l := .status) rfl s

/-- Settles O52: BUF_SIZE is at most 4096 and so fits PARAM's 16 bits. -/
theorem identificationRegistersRead : Obligations.IdentificationRegistersRead := by
  intro s hsize
  refine ⟨hostAccess_read_register (l := .id) rfl s,
    ⟨paramWord s, hostAccess_read_register (l := .param) rfl s, paramWord_fields (by omega)⟩, fun v => ⟨?_, ?_⟩⟩
  · exact hostAccess_write_register (l := .id) rfl v s
  · exact hostAccess_write_register (l := .param) rfl v s

/-- Settles O53, from the fields of the STATUS word. -/
theorem statusReadFields : Obligations.StatusReadFields := by
  intro s
  obtain ⟨hbusy, hdone, hwerr, hzero, hck, hik, hreserved⟩ := statusWord_bits s
  refine ⟨statusWord s, hostAccess_read_status s, by rw [hbusy, busy_iff], hdone, hwerr, hzero, ?_,
    by rw [hck, ckLoaded_iff], by rw [hik, ikLoaded_iff], hreserved⟩
  rw [statusWord_err]
  cases s.err <;> rfl

end Sys2Proof.Machine
end

section
/-! KEY_LOCK: what a step keeps while it is set (10_state.md R26, R27). -/

namespace Sys2Proof.Machine

/-- From s to t KEY_LOCK stands, and no key bit and no load bit moves. -/
structure KeysHeld (s t : State) : Prop where
  keyLock : t.keyLock = true
  ckey : t.ckey = s.ckey
  ikey : t.ikey = s.ikey
  ckWritten : t.ckWritten = s.ckWritten
  ikWritten : t.ikWritten = s.ikWritten

theorem KeysHeld.refl {s : State} (h : s.keyLock = true) : KeysHeld s s := ⟨h, rfl, rfl, rfl, rfl⟩

/-- What a command's reads and its draw move is none of it. -/
theorem KeysHeld.of_consumed {s u : State} (h : s.keyLock = true) (hu : Consumed s u) : KeysHeld s u := by
  rw [hu]; exact ⟨h, rfl, rfl, rfl, rfl⟩

theorem KeysHeld.raiseError {s u : State} (h : KeysHeld s u) (e : ErrCode) : KeysHeld s (raiseError e u) :=
  ⟨h.keyLock, h.ckey, h.ikey, h.ckWritten, h.ikWritten⟩

theorem KeysHeld.finish {s u : State} (h : KeysHeld s u) (out : List Byte) : KeysHeld s (finish out u) :=
  ⟨h.keyLock, h.ckey, h.ikey, h.ckWritten, h.ikWritten⟩

/-- Under KEY_LOCK a key write is dropped in `idle` and in `busy`, and sets WERR. -/
theorem lockedWrite_dropped {s : State} (h : s.keyLock = true) (effect : State → State) :
    unlessBusy (unlessLocked effect) s = { s with werr := true } :=
  unlessBusy_keeps (P := (· = { s with werr := true })) rfl fun _ => unlessLocked_locked h

/-- Under KEY_LOCK no write clears it or reaches a key: a CTRL write can only set it, and a key write is dropped. -/
theorem keysHeld_writeLocation {s : State} (h : s.keyLock = true) (l : Location) (v : Word) :
    KeysHeld s (writeLocation l v s) := by
  have hsame : KeysHeld s s := .refl h
  have hdrop : KeysHeld s { s with werr := true } := ⟨h, rfl, rfl, rfl, rfl⟩
  cases l with
  | id | param | outLen | outWord => exact hsame
  | status => exact ⟨h, rfl, rfl, rfl, rfl⟩
  | ctrl => exact unlessBusy_keeps (P := KeysHeld s) hdrop fun _ => ⟨by simp [h], rfl, rfl, rfl, rfl⟩
  | cmd | len | iv | inWord =>
    rw [writeLocation]
    exact unlessBusy_keeps (P := KeysHeld s) hdrop fun _ => ⟨h, rfl, rfl, rfl, rfl⟩
  | ckey | ikey => simp only [writeLocation, lockedWrite_dropped h]; exact hdrop

/-- Under KEY_LOCK a step that is no reset keeps KEY_LOCK and every key. -/
theorem keysHeld_step {s t : State} (h : s.keyLock = true) (hreset : ∀ rest, s.inputs ≠ .reset :: rest)
    (hstep : step s = .next t) : KeysHeld s t := by
  cases step_effect hstep with
  | still => exact ⟨h, rfl, rfl, rfl, rfl⟩
  | raised rest e u _ hu _ =>
    have hheld : KeysHeld { s with inputs := rest } u := .of_consumed h hu
    exact { hheld.raiseError e with }
  | finished rest out u _ hu _ =>
    have hheld : KeysHeld { s with inputs := rest } u := .of_consumed h hu
    exact { hheld.finish out with }
  | written rest addr l v _ =>
    have hheld := keysHeld_writeLocation (s := { s with inputs := rest }) h l v
    exact { hheld with }
  | reset rest hs => exact absurd hs (hreset rest)

/-- Settles O45: any step but the reset keeps KEY_LOCK, and the reset's state has it 0. -/
theorem keyLockClearedOnlyByReset : Obligations.KeyLockClearedOnlyByReset := by
  intro s t h hstep
  by_cases hreset : ∃ rest, s.inputs = .reset :: rest
  · obtain ⟨rest, hs⟩ := hreset
    cases (step_of_reset hs).symm.trans hstep
    exact .inr ⟨rfl, rest, hs⟩
  · have hnot : ∀ rest, s.inputs ≠ .reset :: rest := not_exists.mp hreset
    exact .inl ⟨(keysHeld_step h hnot hstep).keyLock, hnot⟩

/-- The twelve offsets of R21 are those of the two key files. -/
theorem keyOffset_cases {addr : Offset}
    (h : addr ∈ ([0x020, 0x024, 0x028, 0x02C, 0x040, 0x044, 0x048, 0x04C, 0x050, 0x054, 0x058, 0x05C] : List Offset)) :
    (∃ i : Fin 4, addr = BitVec.ofNat 14 (0x020 + 4 * i.val)) ∨ ∃ i : Fin 8, addr = BitVec.ofNat 14 (0x040 + 4 * i.val) := by
  have hfiles : ([0x020, 0x024, 0x028, 0x02C, 0x040, 0x044, 0x048, 0x04C, 0x050, 0x054, 0x058, 0x05C] : List Offset) =
      (List.finRange 4).map (fun i => BitVec.ofNat 14 (0x020 + 4 * i.val)) ++
        (List.finRange 8).map (fun i => BitVec.ofNat 14 (0x040 + 4 * i.val)) := rfl
  rw [hfiles, List.mem_append, List.mem_map, List.mem_map] at h
  rcases h with ⟨i, _, hi⟩ | ⟨i, _, hi⟩
  · exact .inl ⟨i, hi.symm⟩
  · exact .inr ⟨i, hi.symm⟩

/-- Settles O46: a key write under KEY_LOCK meets the lock's guard, and no other step reaches a key. -/
theorem keyLockDropsKeyWrites : Obligations.KeyLockDropsKeyWrites := by
  intro s h
  refine ⟨fun addr v haddr => ?_, fun t hreset hstep => ?_⟩
  · rcases keyOffset_cases haddr with ⟨i, rfl⟩ | ⟨i, rfl⟩
    · rw [hostAccess_write_register (registerAt_ckey i), writeLocation, lockedWrite_dropped h]
    · rw [hostAccess_write_register (registerAt_ikey i), writeLocation, lockedWrite_dropped h]
  · obtain ⟨_, hck, hik, hckw, hikw⟩ := keysHeld_step h hreset hstep
    exact ⟨hck, hik, hckw, hikw⟩

end Sys2Proof.Machine
end

section
/-! Words and bytes of the two buffers: what a word write stores, what a word read returns, and where the bytes of a command's input
come from (10_state.md R40, R41; 20_memory.md R67, R69; 70_reset_and_hazards.md R261). -/

namespace Sys2Proof.Machine

/-! ## Word writes and reads -/

/-- Byte j of a word written stands at 4k + j. -/
theorem Memory.get_setWord {m : Memory} (h : m.wf = true) (k : Nat) (v : Word) {j : Nat} (hj : j < 4) :
    (m.setWord k v).get (4 * k + j) = some (wordByte v j) := by
  have h1 := Memory.wf_set h (4 * k) (wordByte v 0)
  have h2 := Memory.wf_set h1 (4 * k + 1) (wordByte v 1)
  have h3 := Memory.wf_set h2 (4 * k + 2) (wordByte v 2)
  rw [Memory.setWord]
  match j, hj with
  | 0, _ =>
    rw [Memory.get_set_of_ne _ _ (by omega), Memory.get_set_of_ne _ _ (by omega), Memory.get_set_of_ne _ _ (by omega)]
    exact Memory.get_set_self h _ _
  | 1, _ =>
    rw [Memory.get_set_of_ne _ _ (by omega), Memory.get_set_of_ne _ _ (by omega)]
    exact Memory.get_set_self h1 _ _
  | 2, _ =>
    rw [Memory.get_set_of_ne _ _ (by omega)]
    exact Memory.get_set_self h2 _ _
  | 3, _ => exact Memory.get_set_self h3 _ _

/-- A word write leaves every byte outside its four alone. -/
theorem Memory.get_setWord_outside (m : Memory) {k a : Nat} (v : Word) (h : a < 4 * k ∨ 4 * k + 4 ≤ a) :
    (m.setWord k v).get a = m.get a := by
  rw [Memory.setWord, Memory.get_set_of_ne _ _ (by omega), Memory.get_set_of_ne _ _ (by omega),
    Memory.get_set_of_ne _ _ (by omega), Memory.get_set_of_ne _ _ (by omega)]

/-- A word of four specified bytes reads as those bytes and uses up no free value. -/
theorem readBufWord_specified {m : Memory} {k : Nat} {b0 b1 b2 b3 : Byte} (h0 : m.get (4 * k) = some b0)
    (h1 : m.get (4 * k + 1) = some b1) (h2 : m.get (4 * k + 2) = some b2) (h3 : m.get (4 * k + 3) = some b3) (s : State) :
    readBufWord m k s = (le32 b0 b1 b2 b3, s) := by
  have hbytes : ∀ i, i < 4 → m.get (4 * k + i) = some (byteAt [b0, b1, b2, b3] i)
    | 0, _ => h0
    | 1, _ => h1
    | 2, _ => h2
    | 3, _ => h3
  have hread : m.readBytes (4 * k) 4 s.freeCount = ([b0, b1, b2, b3], s.freeCount) :=
    Memory.readBytes_specified m [b0, b1, b2, b3] (4 * k) s.freeCount hbytes
  rw [readBufWord, hread]
  rfl

/-- A word written reads back. -/
theorem readBufWord_setWord {m : Memory} (h : m.wf = true) (k : Nat) (v : Word) (s : State) :
    readBufWord (m.setWord k v) k s = (v, s) := by
  have hbyte := fun {j} => Memory.get_setWord h k v (j := j)
  rw [readBufWord_specified (hbyte (j := 0) (by decide)) (hbyte (j := 1) (by decide)) (hbyte (j := 2) (by decide))
    (hbyte (j := 3) (by decide)), le32_wordByte]

/-! ## The buffer windows -/

theorem locate_inWord_offset {n k : Nat} (hn : n ≤ 4096) (hk : 4 * k < n) :
    locate n (BitVec.ofNat 14 (0x1000 + 4 * k)) = some (.inWord k) :=
  locate_of_inWord (by rw [BitVec.toNat_ofNat]; omega) hk

theorem locate_outWord_offset {n k : Nat} (hn : n ≤ 4096) (hk : 4 * k < n) :
    locate n (BitVec.ofNat 14 (0x2000 + 4 * k)) = some (.outWord k) :=
  locate_of_outWord (by rw [BitVec.toNat_ofNat]; omega) hn hk

/-- An OUT_BUF word read in `idle` is the buffer's word. -/
theorem readLocation_outWord_idle {s : State} (h : s.seq = .idle) (k : Nat) :
    readLocation (.outWord k) s = readBufWord s.outBuf k s := by
  simp [readLocation, busy, h]

/-- An OUT_BUF word read in `busy` shows nothing of the buffer. -/
theorem readLocation_outWord_busy {s : State} (h : s.seq = .busy) (k : Nat) :
    readLocation (.outWord k) s = freeWord s := by
  simp [readLocation, busy, h]

/-- Settles O50: the invariant's canonical form of IN_BUF is what lets the bytes read back. -/
theorem inBufWordWrite : Obligations.InBufWordWrite := by
  intro s k v ⟨⟨_, hsize, _⟩, ⟨hwf, _⟩, _⟩ hidle hk
  have hat := locate_inWord_offset hsize hk
  have hwrite : hostAccess (.write (BitVec.ofNat 14 (0x1000 + 4 * k)) 32 v) s =
      { s with inBuf := s.inBuf.setWord k v, response := some .ok } := by
    rw [hostAccess_write hat, writeLocation, unlessBusy_idle hidle]
  refine ⟨_, hwrite, fun j hj => Memory.get_setWord hwf k v hj, fun a ha => Memory.get_setWord_outside _ v ha, rfl, ?_⟩
  rw [hostAccess_read (s := { s with inBuf := s.inBuf.setWord k v, response := some .ok }) hat]
  simp only [readLocation, readBufWord_setWord hwf]

/-- Settles O51, by the sequencer's two states. -/
theorem outBufWordRead : Obligations.OutBufWordRead := by
  intro s k ⟨_, hsize, _⟩ hk
  rw [hostAccess_read (locate_outWord_offset hsize hk)]
  refine ⟨fun b0 b1 b2 b3 hidle h0 h1 h2 h3 => ?_, fun hbusy => ?_⟩
  · rw [readLocation_outWord_idle hidle, readBufWord_specified h0 h1 h2 h3]
    rfl
  · rw [readLocation_outWord_busy hbusy]
    rfl

/-- Settles O60: the busy values are the invariant's. -/
theorem registerReads : Obligations.RegisterReads := by
  intro s
  have houtLen : hostAccess (.read 0x018 32) s = { s with response := some (.okData s.outLen) } :=
    hostAccess_read_register (l := .outLen) rfl s
  refine ⟨⟨ctrlWord s, hostAccess_read_register (l := .ctrl) rfl s, ctrlWord_fields s⟩,
    hostAccess_read_register (l := .cmd) rfl s, houtLen, fun k b0 b1 b2 b3 ⟨_, hsize, _⟩ hk h0 h1 h2 h3 => ?_,
    fun ⟨_, _, _, _, hclear, _⟩ hbusy => ?_⟩
  · rw [hostAccess_read (locate_inWord_offset hsize hk), readLocation, readBufWord_specified h0 h1 h2 h3]
    rfl
  · obtain ⟨hdone, herr, hlen⟩ := hclear hbusy
    obtain ⟨hbit0, hbit1, _⟩ := statusWord_bits s
    refine ⟨by rw [houtLen, hlen], statusWord s, hostAccess_read_status s, ?_, ?_, ?_⟩
    · rw [hbit0, busy_iff, hbusy]
    · rw [hbit1, hdone]
    · rw [statusWord_err, herr]; rfl

/-! ## The bytes of an input -/

/-- How many of the n bytes of a buffer from a on are unspecified. -/
def unspecifiedFrom (m : Memory) (a n : Nat) : Nat := (List.range' a n).countP fun i => (m.get i).isNone

theorem unspecifiedFrom_zero_start (m : Memory) (n : Nat) : unspecifiedFrom m 0 n = unspecifiedBelow m n := by
  rw [unspecifiedFrom, unspecifiedBelow, List.countP_eq_length_filter, List.range_eq_range']

theorem unspecifiedFrom_succ (m : Memory) (a n : Nat) :
    unspecifiedFrom m a (n + 1) = unspecifiedFrom m (a + 1) n + if (m.get a).isNone then 1 else 0 := by
  rw [unspecifiedFrom, List.range'_succ, List.countP_cons, unspecifiedFrom]

/-- Each unspecified byte read uses up one free value, and no other byte does. -/
theorem Memory.readBytes_count (m : Memory) : ∀ n a f : Nat, (m.readBytes a n f).2 = f + unspecifiedFrom m a n := by
  intro n
  induction n with
  | zero => intro a f; rfl
  | succ n ih =>
    intro a f
    rw [Memory.readBytes, unspecifiedFrom_succ]
    cases h : m.get a with
    | some b => simp [ih]
    | none => simp [ih]; omega

/-- Byte i read is the buffer's, or the free value at the count of the unspecified bytes before it. -/
theorem Memory.readBytes_byteAt (m : Memory) :
    ∀ n a f i : Nat, i < n →
      byteAt (m.readBytes a n f).1 i = (m.get (a + i)).getD (Config.freeByte (f + unspecifiedFrom m a i)) := by
  intro n
  induction n with
  | zero => intro a f i hi; cases hi
  | succ n ih =>
    intro a f i hi
    rw [Memory.readBytes]
    cases i with
    | zero => cases h : m.get a <;> simp [byteAt, unspecifiedFrom]
    | succ i =>
      have hnext : a + (i + 1) = a + 1 + i := by omega
      have htail := fun f => ih (a + 1) f i (by omega)
      rw [unspecifiedFrom_succ, hnext]
      cases h : m.get a with
      | some b => simpa [byteAt, h] using htail f
      | none => simpa [byteAt, h, Nat.add_assoc, Nat.add_comm 1] using htail (f + 1)

/-- Settles O14: the laws of a read from any byte on, at byte 0. -/
theorem inputBytesAreInBufOrFree : Obligations.InputBytesAreInBufOrFree := by
  intro s n
  refine ⟨inputBytes_length s n, ?_, fun i hi => ?_⟩
  · rw [afterInput_freeCount, Memory.readBytes_count, unspecifiedFrom_zero_start]
  · rw [inputBytes, Memory.readBytes_byteAt _ _ _ _ _ hi, unspecifiedFrom_zero_start, Nat.zero_add]
    cases s.inBuf.get i <;> rfl

end Sys2Proof.Machine
end

section
/-! The address map as a whole, and that no read depends on the keys (10_state.md R21, R35; 20_memory.md R61 to R63). -/

namespace Sys2Proof.Machine

/-! ## The mapped offsets -/

/-- The mapped offsets of the register region (10_state.md R21). -/
theorem registerAt_isSome_iff (n : Nat) :
    (registerAt n).isSome = true ↔
      n % 4 = 0 ∧ (n < 0x01C ∨ (0x020 ≤ n ∧ n < 0x030) ∨ (0x040 ≤ n ∧ n < 0x070)) := by
  simp only [registerAt, Option.isSome_map, List.find?_isSome, beq_iff_eq]
  simp [registerTable]
  omega

/-- The aligned offsets of the map for a given BUF_SIZE (10_state.md R21; 20_memory.md R61, R63). -/
def Mapped (bufSize n : Nat) : Prop :=
  n % 4 = 0 ∧
    (n < 0x01C ∨ (0x020 ≤ n ∧ n < 0x030) ∨ (0x040 ≤ n ∧ n < 0x070) ∨ (0x1000 ≤ n ∧ n < 0x1000 + bufSize) ∨
      (0x2000 ≤ n ∧ n < 0x2000 + bufSize))

theorem locate_isSome_iff {bufSize : Nat} (h : bufSize ≤ 4096) (addr : Offset) :
    (locate bufSize addr).isSome = true ↔ Mapped bufSize addr.toNat := by
  unfold locate locateAt Mapped
  split
  · simp; omega
  · split
    · rw [registerAt_isSome_iff]; omega
    · split
      · simp; omega
      · split
        · simp; omega
        · split <;> simp <;> omega

theorem target_isSome_iff {bufSize : Nat} (h : bufSize ≤ 4096) (addr : Offset) (bits : Nat) :
    (target bufSize addr bits).isSome = true ↔ bits = 32 ∧ Mapped bufSize addr.toNat := by
  rw [← locate_isSome_iff h, target]
  split <;> simp [*]

/-- Settles O39: an access is answered `ok` where it has a target. -/
theorem mappedOffsetsAnswerOk : Obligations.MappedOffsetsAnswerOk := by
  intro s addr bits v ⟨_, hsize, _⟩
  have hiff := target_isSome_iff hsize addr bits
  refine ⟨fun hmapped => ?_, fun hunmapped => ?_⟩
  · obtain ⟨l, hl⟩ := Option.isSome_iff_exists.mp (hiff.mpr hmapped)
    simp [hostAccess, hl]
  · have hnone : target s.bufSize addr bits = none := by
      rw [← Option.not_isSome_iff_eq_none, hiff]; exact hunmapped
    simp [hostAccess, hnone]

/-! ## Independence of the keys -/

/-- No location's value is made of a key, and no read moves one. -/
theorem readLocation_keys (l : Location) (s : State) (ck : Vector Word 4) (ik : Vector Word 8) :
    readLocation l { s with ckey := ck, ikey := ik } =
      ((readLocation l s).1, { (readLocation l s).2 with ckey := ck, ikey := ik }) := by
  cases l with
  | outWord k =>
    have hbusy : busy { s with ckey := ck, ikey := ik } = busy s := rfl
    simp only [readLocation, hbusy]
    split <;> rfl
  | _ => rfl

/-- Settles O42: an access has the same target under every key, and so the same value. -/
theorem readsDoNotDependOnKeys : Obligations.ReadsDoNotDependOnKeys := by
  intro s addr bits ck ik
  cases htarget : target s.bufSize addr bits with
  | none => simp only [hostAccess, htarget]
  | some l => simp only [hostAccess, htarget, readLocation_keys]

end Sys2Proof.Machine
end

section
/-! Memory semantics of the host port: reads have no side effect, which writes change nothing, and the busy write barrier
(20_memory.md R64 to R66, R71). -/

namespace Sys2Proof.Machine

/-! ## Reads -/

/-- Settles O40: a read without a target is a `buserr`, and one with a target is the location's read. -/
theorem readsHaveNoSideEffect : Obligations.ReadsHaveNoSideEffect := by
  intro s addr bits
  cases htarget : target s.bufSize addr bits with
  | none => simp only [hostAccess, htarget]
  | some l =>
    simp only [hostAccess, htarget]
    rw [readLocation_state]

/-- Settles O41, by the two key files. -/
theorem keyRegistersReadZero : Obligations.KeyRegistersReadZero := by
  intro s addr haddr
  rcases keyOffset_cases haddr with ⟨i, rfl⟩ | ⟨i, rfl⟩
  · exact hostAccess_read_register (registerAt_ckey i) s
  · exact hostAccess_read_register (registerAt_ikey i) s

/-! ## Read-only locations and fields -/

/-- ID, PARAM and OUT_LEN ignore writes. -/
theorem hostAccess_write_readOnlyRegister {addr : Offset}
    (h : addr.toNat = 0x000 ∨ addr.toNat = 0x004 ∨ addr.toNat = 0x018) (v : Word) (s : State) :
    hostAccess (.write addr 32 v) s = { s with response := some .ok } := by
  rcases h with h | h | h
  · exact hostAccess_write_register (l := .id) (by rw [h]; rfl) v s
  · exact hostAccess_write_register (l := .param) (by rw [h]; rfl) v s
  · exact hostAccess_write_register (l := .outLen) (by rw [h]; rfl) v s

/-- Every word of OUT_BUF ignores writes. -/
theorem hostAccess_write_outBuf {s : State} {addr : Offset} (haligned : addr.toNat % 4 = 0) (hlow : 0x2000 ≤ addr.toNat)
    (hhigh : addr.toNat < 0x2000 + s.bufSize) (hsize : s.bufSize ≤ 4096) (v : Word) :
    hostAccess (.write addr 32 v) s = { s with response := some .ok } :=
  hostAccess_write (locate_of_outWord (k := (addr.toNat - 0x2000) / 4) (by omega) hsize (by omega)) v

/-- DONE and WERR show in bits 1 and 2 of STATUS alone (R29). -/
theorem statusWord_getLsbD_outside_sticky (s : State) (done werr : Bool) (r : Option BusResponse) {j : Nat}
    (h1 : j ≠ 1) (h2 : j ≠ 2) :
    (statusWord { s with done := done, werr := werr, response := r }).getLsbD j = (statusWord s).getLsbD j := by
  simp only [statusWord, BitVec.getLsbD_append, getLsbD_bit]
  by_cases h0 : j = 0
  · subst h0; rfl
  · have hdone : ¬ j - 1 < 1 := by omega
    have hwerr : ¬ j - 1 - 1 < 1 := by omega
    simp only [hdone, hwerr, if_false]
    rfl

/-- Settles O43: a read-only location has no effect to guard, CTRL's reserved bits are no state, and a STATUS write reaches only the
two fields it can clear. -/
theorem readOnlyLocationsIgnoreWrites : Obligations.ReadOnlyLocationsIgnoreWrites := by
  intro s v
  obtain ⟨hctrl, _⟩ := ctrlWrite s v
  have hstatus := statusWriteClears s v
  have hregisters : ∀ addr ∈ ([0x000, 0x004, 0x018] : List Offset),
      addr.toNat = 0x000 ∨ addr.toNat = 0x004 ∨ addr.toNat = 0x018 := by decide
  refine ⟨fun addr haddr => hostAccess_write_readOnlyRegister (hregisters addr haddr) v s,
    fun addr haligned hlow hhigh hsize => hostAccess_write_outBuf haligned hlow hhigh hsize v, fun j hj => ?_,
    fun hidle => ?_, fun j h1 h2 => ?_, fun hwerr => ?_⟩
  · obtain ⟨_, _, _, hreserved⟩ := ctrlWord_fields (hostAccess (.write 0x008 32 v) s)
    exact hreserved j hj
  · rw [hctrl hidle]
  · rw [hstatus]
    exact statusWord_getLsbD_outside_sticky s _ _ _ h1 h2
  · rw [hstatus] at hwerr
    simp only at hwerr
    split at hwerr
    · cases hwerr
    · exact hwerr

/-! ## The busy write barrier -/

/-- The locations whose writes the busy write barrier drops (R66). -/
def Location.barred : Location → Bool
  | .ctrl | .cmd | .len | .ckey _ | .ikey _ | .iv _ | .inWord _ => true
  | .id | .param | .status | .outLen | .outWord _ => false

/-- In `busy` a write to a barred location only sets WERR. -/
theorem writeLocation_barred {s : State} (hbusy : s.seq = .busy) {l : Location} (hl : l.barred = true) (v : Word) :
    writeLocation l v s = { s with werr := true } := by
  cases l with
  | ctrl | cmd | len | ckey | ikey | iv | inWord => rw [writeLocation, unlessBusy_busy hbusy]
  | id | param | status | outLen | outWord => cases hl

/-- The offsets of R66 in the register region, each the offset of a barred register. -/
theorem registerAt_barred : ∀ n < 0x070, n % 4 = 0 →
    n = 0x008 ∨ n = 0x00C ∨ n = 0x014 ∨ (0x020 ≤ n ∧ n < 0x030) ∨ 0x040 ≤ n →
    ∃ l ∈ registerAt n, l.barred = true := by
  decide

/-- The offsets of R66, registers and IN_BUF words alike, name barred locations. -/
theorem locate_barred {bufSize : Nat} {addr : Offset} (haligned : addr.toNat % 4 = 0)
    (h : addr.toNat = 0x008 ∨ addr.toNat = 0x00C ∨ addr.toNat = 0x014 ∨ (0x020 ≤ addr.toNat ∧ addr.toNat < 0x030) ∨
      (0x040 ≤ addr.toNat ∧ addr.toNat < 0x070) ∨ (0x1000 ≤ addr.toNat ∧ addr.toNat < 0x1000 + bufSize)) :
    ∃ l, locate bufSize addr = some l ∧ l.barred = true := by
  by_cases hregion : addr.toNat < 0x070
  · obtain ⟨l, hl, hbarred⟩ := registerAt_barred addr.toNat hregion haligned (by omega)
    exact ⟨l, locate_register hl bufSize, hbarred⟩
  · exact ⟨_, locate_of_inWord (k := (addr.toNat - 0x1000) / 4) (by omega) (by omega), rfl⟩

/-- In `busy` no access moves an input of the running command, nor ends it. -/
theorem frozenInputs_hostAccess {s : State} (hbusy : s.seq = .busy) (a : BusAccess) :
    frozenInputs (hostAccess a s) = frozenInputs s ∧ (hostAccess a s).seq = .busy := by
  rcases hostAccess_cases a s with h | ⟨_, l, _, _, h⟩ | ⟨_, v, l, _, _, h⟩
  · rw [h]; exact ⟨rfl, hbusy⟩
  · rw [h, readLocation_state]; exact ⟨rfl, hbusy⟩
  · rw [h, writeLocation_busy hbusy]; exact ⟨rfl, hbusy⟩

/-- Settles O54: a write in `busy` meets the barrier, is a STATUS write, or has a read-only target. -/
theorem busyWriteBarrier : Obligations.BusyWriteBarrier := by
  intro s hbusy ⟨_, hsize, _⟩
  refine ⟨fun addr v haligned hoffset => ?_, fun v => hostAccess_write_register (l := .status) rfl v s,
    fun addr v haligned hoffset => ?_, frozenInputs_hostAccess hbusy⟩
  · obtain ⟨l, hl, hbarred⟩ := locate_barred haligned hoffset
    rw [hostAccess_write hl, writeLocation_barred hbusy hbarred]
  · rcases hoffset with h | h | h | ⟨hlow, hhigh⟩
    · exact hostAccess_write_readOnlyRegister (.inl h) v s
    · exact hostAccess_write_readOnlyRegister (.inr (.inl h)) v s
    · exact hostAccess_write_readOnlyRegister (.inr (.inr h)) v s
    · exact hostAccess_write_outBuf haligned hlow hhigh hsize v

end Sys2Proof.Machine
end

section
/-! The code table read both ways: the decoder inverts the encoder, and the number a word is says which way it decodes
(30_encoding.md R80 to R82). -/

namespace Sys2Proof

/-! ## The code table -/

@[simp] theorem decodeOpc_opcOf (i : Instr) : decodeOpc (opcOf i) = some i := by
  cases i <;> rfl

/-- Every row of the code table is a command's own code. -/
theorem opcodeTable_row : ∀ row ∈ opcodeTable, row.1 = opcOf row.2 := by decide

theorem decodeOpc_eq_some_iff {c : BitVec 8} {i : Instr} : decodeOpc c = some i ↔ c = opcOf i := by
  refine ⟨fun h => ?_, fun h => by rw [h, decodeOpc_opcOf]⟩
  obtain ⟨row, hfind, rfl⟩ := Option.map_eq_some_iff.mp h
  have hcode : row.1 = c := by simpa using List.find?_some hfind
  rw [← hcode, opcodeTable_row row (List.mem_of_find?_eq_some hfind)]

/-- The codes with a command are the nine of R82. -/
theorem decodeOpc_isSome_iff (c : BitVec 8) :
    (decodeOpc c).isSome = true ↔ c.toNat ∈ [0x01, 0x02, 0x10, 0x11, 0x12, 0x13, 0x20, 0x30, 0x31] := by
  simp only [decodeOpc, Option.isSome_map, List.find?_isSome, beq_iff_eq]
  simp [opcodeTable, BitVec.toNat_eq, eq_comm]

/-! ## The fields of a CMD word -/

theorem fieldsOf_rsv_eq_zero_iff (v : Word) : (fieldsOf v).rsv = 0 ↔ v.toNat < 256 := by
  have hlt := v.isLt
  simp only [fieldsOf, BitVec.toNat_eq, BitVec.extractLsb'_toNat, Nat.shiftRight_eq_div_pow]
  simp
  omega

theorem fieldsOf_opc_toNat (v : Word) : (fieldsOf v).opc.toNat = v.toNat % 256 := by
  simp [fieldsOf]

theorem encode_toNat (i : Instr) : (encode i).toNat = (opcOf i).toNat :=
  (BitVec.toNat_append 0#24 (opcOf i)).trans (by simp)

/-- A word encodes a command exactly when RSV is zero and OPC is the command's code. -/
theorem eq_encode_iff (v : Word) (i : Instr) : v = encode i ↔ (fieldsOf v).rsv = 0 ∧ (fieldsOf v).opc = opcOf i := by
  have hcode := (opcOf i).isLt
  rw [fieldsOf_rsv_eq_zero_iff, BitVec.toNat_eq, BitVec.toNat_eq, encode_toNat, fieldsOf_opc_toNat]
  omega

/-! ## The decoder -/

theorem decode_of_rsv {v : Word} (h : (fieldsOf v).rsv ≠ 0) : decode v = .error .reservedBits := by
  rw [decode, if_pos h]

theorem decode_of_code {v : Word} {i : Instr} (hrsv : (fieldsOf v).rsv = 0) (h : decodeOpc (fieldsOf v).opc = some i) :
    decode v = .ok i := by
  rw [decode, if_neg (not_not.mpr hrsv), h]

theorem decode_of_noCode {v : Word} (hrsv : (fieldsOf v).rsv = 0) (h : decodeOpc (fieldsOf v).opc = none) :
    decode v = .error .reservedCode := by
  rw [decode, if_neg (not_not.mpr hrsv), h]

/-- The decoder inverts the encoder, and accepts no other word. -/
theorem decode_eq_ok_iff (v : Word) (i : Instr) : decode v = .ok i ↔ v = encode i := by
  rw [eq_encode_iff, ← decodeOpc_eq_some_iff]
  refine ⟨fun h => ?_, fun ⟨hrsv, hcode⟩ => decode_of_code hrsv hcode⟩
  by_cases hrsv : (fieldsOf v).rsv = 0
  · cases hcode : decodeOpc (fieldsOf v).opc with
    | none => cases (decode_of_noCode hrsv hcode).symm.trans h
    | some j => cases (decode_of_code hrsv hcode).symm.trans h; exact ⟨hrsv, rfl⟩
  · cases (decode_of_rsv hrsv).symm.trans h

theorem decode_encode (i : Instr) : decode (encode i) = .ok i := (decode_eq_ok_iff _ i).mpr rfl

/-- Settles O1: the words a command decodes from are its encoding and no other. -/
theorem decodeAndEncodeAgree : Obligations.DecodeAndEncodeAgree :=
  ⟨fun i _ => decode_encode i, fun v i => (decode_eq_ok_iff v i).mp⟩

/-- Settles O2: the three clauses are the decoder's three ways, with the fields read off the word's number. -/
theorem decodeSplitsAllWords : Obligations.DecodeSplitsAllWords := by
  intro v
  have hrsv := fieldsOf_rsv_eq_zero_iff v
  have hcode := decodeOpc_isSome_iff (fieldsOf v).opc
  rw [fieldsOf_opc_toNat] at hcode
  refine ⟨fun h => decode_of_rsv (fun hzero => absurd (hrsv.mp hzero) (by omega)), fun h hnot => ?_, fun hlisted => ?_⟩
  · rw [Nat.mod_eq_of_lt h] at hcode
    exact decode_of_noCode (hrsv.mpr h) (Option.not_isSome_iff_eq_none.mp fun hsome => hnot (hcode.mp hsome))
  · have hsmall : ∀ n ∈ [0x01, 0x02, 0x10, 0x11, 0x12, 0x13, 0x20, 0x30, 0x31], n < 256 := by decide
    have h := hsmall _ hlisted
    rw [Nat.mod_eq_of_lt h] at hcode
    obtain ⟨i, hi⟩ := Option.isSome_iff_exists.mp (hcode.mpr hlisted)
    exact ⟨i, decode_of_code (hrsv.mpr h) hi⟩

/-- Settles O3: nine words are encodings, and the other three fall to the two illegal ways. -/
theorem codeTableWordsDecode : Obligations.CodeTableWordsDecode :=
  ⟨decode_encode .envEncode, decode_encode .envDecode, decode_encode .aesEcbEnc, decode_encode .aesEcbDec,
    decode_encode .aesCbcEnc, decode_encode .aesCbcDec, decode_encode .hmacSha256, decode_encode .pkcs7Pad,
    decode_encode .pkcs7Unpad, decode_of_noCode rfl rfl, decode_of_rsv (by decide), decode_of_rsv (by decide)⟩

end Sys2Proof
end

section
/-! The events of a host program: one access, and a list of word writes (30_encoding.md R84, R86, R87). -/

namespace Sys2Proof.Machine

theorem step_of_access {s : State} {a : BusAccess} {rest : List Input} (h : s.inputs = .access a :: rest) :
    step s = .next (hostAccess a { s with inputs := rest }) := by
  simp only [step, h]

/-- Settles O9: a CMD write meets the busy write barrier, and its effect in `idle` is the start of the command. -/
theorem cmdWriteStartsOrIsDropped : Obligations.CmdWriteStartsOrIsDropped := by
  intro s v rest hinputs
  rw [step_of_access hinputs, hostAccess_write_register (l := .cmd) rfl, writeLocation]
  refine ⟨fun hidle => ?_, fun hbusy => ?_⟩
  · rw [unlessBusy_idle (s := { s with inputs := rest }) hidle]; rfl
  · rw [unlessBusy_busy (s := { s with inputs := rest }) hbusy]

/-! ## A list of word writes -/

/-- A guarded write leaves the events still to come, whichever way the guards go. -/
theorem writeLocation_inputs (l : Location) (v : Word) (s : State) : (writeLocation l v s).inputs = s.inputs := by
  cases l with
  | id | param | outLen | outWord | status => rfl
  | ctrl | cmd | len | iv | inWord => exact unlessBusy_keeps (P := fun t => t.inputs = s.inputs) rfl fun _ => rfl
  | ckey | ikey =>
    exact unlessBusy_keeps (P := fun t => t.inputs = s.inputs) rfl fun _ =>
      unlessLocked_keeps (P := fun t => t.inputs = s.inputs) rfl fun _ => rfl

/-- No access touches the events still to come. -/
theorem hostAccess_inputs (a : BusAccess) (s : State) : (hostAccess a s).inputs = s.inputs := by
  rcases hostAccess_cases a s with h | ⟨_, l, _, _, h⟩ | ⟨_, v, l, _, _, h⟩
  · rw [h]
  · rw [h, readLocation_state]
  · rw [h]; exact writeLocation_inputs l v s

/-- P says what holds once the first k words of b are written from an offset on: each write takes P one word further, and P does not
look at the events. -/
structure WritesKeep (base : Nat) (b : List Byte) (n : Nat) (P : Nat → State → Prop) : Prop where
  inputs : ∀ k s rest, P k s → P k { s with inputs := rest }
  write : ∀ k s, k < n → P k s →
    P (k + 1) (hostAccess (.write (BitVec.ofNat 14 (base + 4 * k)) 32 (wordOf (b.drop (4 * k)))) s)

/-- The rest of the words: those after the first. -/
theorem WritesKeep.tail {base n : Nat} {b : List Byte} {P : Nat → State → Prop} (h : WritesKeep base b (n + 1) P) :
    WritesKeep (base + 4) (b.drop 4) n fun k => P (k + 1) := by
  refine ⟨fun k => h.inputs (k + 1), fun k s hk hs => ?_⟩
  have hoffset : base + 4 + 4 * k = base + 4 * (k + 1) := by omega
  have hdrop : (b.drop 4).drop (4 * k) = b.drop (4 * (k + 1)) := by rw [List.drop_drop]; congr 1; omega
  rw [hoffset, hdrop]
  exact h.write (k + 1) s (by omega) hs

/-- A run over n word writes takes them all. -/
theorem run_writeWords (rest : List Input) :
    ∀ (n base : Nat) (b : List Byte) (P : Nat → State → Prop) (s : State), WritesKeep base b n P → P 0 s →
      s.inputs = writeWords base n b ++ rest →
      ∃ t, Sys2Proof.core.run n s = .next t ∧ t.inputs = rest ∧ P n t := by
  intro n
  induction n with
  | zero => intro base b P s _ h0 hinputs; exact ⟨s, rfl, hinputs, h0⟩
  | succ n ih =>
    intro base b P s hkeep h0 hinputs
    have hstep := step_of_access (s := s) hinputs
    have h1 := hkeep.write 0 _ (Nat.succ_pos n) (hkeep.inputs 0 s (writeWords (base + 4) n (b.drop 4) ++ rest) h0)
    rw [run_succ hstep]
    exact ih (base + 4) (b.drop 4) _ _ hkeep.tail h1 (hostAccess_inputs _ _)

/-! ## LOAD -/

/-- Byte j of the word made of the bytes of b from 4k on. -/
theorem wordByte_wordOf_drop (b : List Byte) (k : Nat) {j : Nat} (hj : j < 4) :
    wordByte (wordOf (b.drop (4 * k))) j = byteAt b (4 * k + j) := by
  have hbyte : ∀ i, byteAt (b.drop (4 * k)) i = byteAt b (4 * k + i) := fun i => by simp [byteAt]
  obtain ⟨h0, h1, h2, h3⟩ := wordByte_le32 (byteAt b (4 * k + 0)) (byteAt b (4 * k + 1)) (byteAt b (4 * k + 2))
    (byteAt b (4 * k + 3))
  simp only [wordOf, hbyte]
  match j, hj with
  | 0, _ => exact h0
  | 1, _ => exact h1
  | 2, _ => exact h2
  | 3, _ => exact h3

/-- From s to t the first k words of b were written to IN_BUF, by no other effect on what the statement about LOAD speaks of. -/
structure InBufLoaded (s : State) (b : List Byte) (k : Nat) (t : State) : Prop where
  idle : t.seq = .idle
  wf : t.inBuf.wf = true
  bytes : ∀ a, a < 4 * k → t.inBuf.get a = some (byteAt b a)
  bufSize : t.bufSize = s.bufSize
  ckey : t.ckey = s.ckey
  ikey : t.ikey = s.ikey
  iv : t.iv = s.iv
  outBuf : t.outBuf = s.outBuf

/-- The bytes of a word written, after those of the words before it. -/
theorem Memory.get_setWord_upTo {m : Memory} (h : m.wf = true) {b : List Byte} {k : Nat}
    (hbytes : ∀ a, a < 4 * k → m.get a = some (byteAt b a)) :
    ∀ a, a < 4 * (k + 1) → (m.setWord k (wordOf (b.drop (4 * k)))).get a = some (byteAt b a) := by
  intro a ha
  by_cases hold : a < 4 * k
  · rw [Memory.get_setWord_outside m _ (.inl hold), hbytes a hold]
  · obtain ⟨j, rfl⟩ := Nat.exists_eq_add_of_le (Nat.le_of_not_lt hold)
    have hj : j < 4 := by omega
    rw [Memory.get_setWord h k _ hj, wordByte_wordOf_drop b k hj]

/-- Each IN_BUF word write of LOAD loads one word more. -/
theorem inBufLoaded_writesKeep {s : State} (hsize : s.bufSize ≤ 4096) (b : List Byte) {n : Nat}
    (hn : 4 * n < s.bufSize + 4) : WritesKeep 0x1000 b n (InBufLoaded s b) := by
  refine ⟨fun k t rest h => { h with }, fun k t hk h => ?_⟩
  have hat : locate t.bufSize (BitVec.ofNat 14 (0x1000 + 4 * k)) = some (.inWord k) :=
    locate_inWord_offset (by rw [h.bufSize]; exact hsize) (by rw [h.bufSize]; omega)
  rw [hostAccess_write hat, writeLocation, unlessBusy_idle h.idle]
  exact { h with wf := Memory.wf_setWord h.wf _ _, bytes := Memory.get_setWord_upTo h.wf h.bytes }

/-- Settles O58: the word writes load b by induction on their number, and the write to LEN moves nothing they loaded. -/
theorem loadPlacesTheInput : Obligations.LoadPlacesTheInput := by
  intro s b ⟨⟨_, hsize, _⟩, ⟨hwf, _⟩, _⟩ hidle hlength
  have hstart : InBufLoaded s b 0 { s with inputs := hostLOAD b } :=
    ⟨hidle, hwf, fun a ha => absurd ha (Nat.not_lt_zero a), rfl, rfl, rfl, rfl, rfl⟩
  obtain ⟨u, hrun, hinputs, hu⟩ :=
    run_writeWords _ _ _ b _ _ (inBufLoaded_writesKeep hsize b (n := (b.length + 3) / 4) (by omega)) hstart rfl
  have hlen : step u = .next { u with inputs := [], len := BitVec.ofNat 32 b.length, response := some .ok } := by
    rw [step_of_access hinputs, hostAccess_write_register (l := .len) rfl, writeLocation,
      unlessBusy_idle (s := { u with inputs := [] }) hu.idle]
  refine ⟨_, (run_add hrun).trans (run_succ hlen), rfl, hu.idle, rfl, ?_, hu.ckey, hu.ikey, hu.iv, hu.outBuf⟩
  exact (inputBytes_specified fun i hi => hu.bytes i (by omega)).1

/-! ## SETCK and SETIK -/

theorem leBytes_wordOf {c : List Byte} (h : 4 ≤ c.length) : leBytes (wordOf c) = c.take 4 := by
  obtain ⟨h0, h1, h2, h3⟩ := wordByte_le32 (byteAt c 0) (byteAt c 1) (byteAt c 2) (byteAt c 3)
  rw [leBytes, wordOf, h0, h1, h2, h3]
  match c, h with
  | _ :: _ :: _ :: _ :: _, _ => rfl

theorem chunks_getElem {α : Type} (m : Nat) :
    ∀ (n i : Nat) (b : List α) (hi : i < (chunks m n b).length), (chunks m n b)[i] = (b.drop (m * i)).take m := by
  intro n
  induction n with
  | zero => intro i b hi; cases hi
  | succ n ih =>
    intro i b hi
    cases i with
    | zero => rfl
    | succ i =>
      have hdrop : m + m * i = m * (i + 1) := by rw [Nat.mul_succ, Nat.add_comm]
      simp only [chunks, List.getElem_cons_succ, ih, List.drop_drop, hdrop]

/-- The first k words of a key file hold the words of b, and their load bits are 1. -/
def WordsLoaded {n : Nat} (b : List Byte) (k : Nat) (keys : Vector Word n) (w : BitVec n) : Prop :=
  ∀ i : Fin n, i.val < k → keys[i] = wordOf (b.drop (4 * i.val)) ∧ w.getLsbD i.val = true

theorem wordsLoaded_zero {n : Nat} (b : List Byte) (keys : Vector Word n) (w : BitVec n) : WordsLoaded b 0 keys w :=
  fun i hi => absurd hi (Nat.not_lt_zero i.val)

/-- A key write of the next word loads one word more. -/
theorem WordsLoaded.set {n : Nat} {b : List Byte} {keys : Vector Word n} {w : BitVec n} (i : Fin n)
    (h : WordsLoaded b i.val keys w) :
    WordsLoaded b (i.val + 1) (keys.set i (wordOf (b.drop (4 * i.val)))) (w ||| (1#n <<< i.val)) := by
  obtain ⟨hword, hbit, hothers⟩ := set_word_and_bit keys w i (wordOf (b.drop (4 * i.val)))
  intro j hj
  by_cases hji : j = i
  · subst hji; exact ⟨hword, hbit⟩
  · obtain ⟨hkeep, hkeepBit⟩ := hothers j hji
    have hlt : j.val < i.val := by have := Fin.val_ne_of_ne hji; omega
    rw [hkeep, hkeepBit]
    exact h j hlt

/-- A key file loaded with all the words of b holds the bytes of b. -/
theorem WordsLoaded.bytes {n : Nat} {b : List Byte} {keys : Vector Word n} {w : BitVec n} (hb : b.length = n * 4)
    (h : WordsLoaded b n keys w) : keys.toList.flatMap leBytes = b := by
  have hpieces : keys.toList.map leBytes = chunks 4 n b := by
    refine List.ext_getElem (by simp) fun i hi _ => ?_
    have hin : i < n := by simpa using hi
    obtain ⟨hword, _⟩ := h ⟨i, hin⟩ hin
    have hget : keys[i] = wordOf (b.drop (4 * i)) := hword
    rw [chunks_getElem, ← leBytes_wordOf (by simp; omega), ← hget]
    simp
  rw [List.flatMap_def, hpieces, chunks_flatten 4 n b hb]

/-- The block of four register words is their bytes in turn. -/
theorem blockOfWords_bytes (keys : Vector Word 4) : (blockOfWords keys).bytes = keys.toList.flatMap leBytes := by
  obtain ⟨⟨l⟩, hl⟩ := keys
  match l, hl with
  | [_, _, _, _], _ => rfl

/-- From s to t the first k words of b were written to CK, by no other effect on what the statement about SETCK speaks of. -/
structure CkSet (s : State) (b : List Byte) (k : Nat) (t : State) : Prop where
  idle : t.seq = .idle
  unlocked : t.keyLock = false
  words : WordsLoaded b k t.ckey t.ckWritten
  ikey : t.ikey = s.ikey
  iv : t.iv = s.iv

/-- From s to t the first k words of b were written to IK, by no other effect on what the statement about SETIK speaks of. -/
structure IkSet (s : State) (b : List Byte) (k : Nat) (t : State) : Prop where
  idle : t.seq = .idle
  unlocked : t.keyLock = false
  words : WordsLoaded b k t.ikey t.ikWritten
  ckey : t.ckey = s.ckey
  iv : t.iv = s.iv

theorem ckSet_writesKeep (s : State) (b : List Byte) : WritesKeep 0x020 b 4 (CkSet s b) := by
  refine ⟨fun k t rest h => { h with }, fun k t hk h => ?_⟩
  rw [hostAccess_write_register (registerAt_ckey ⟨k, hk⟩), writeLocation, keyWrite_takesEffect h.idle h.unlocked]
  exact { h with words := h.words.set ⟨k, hk⟩ }

theorem ikSet_writesKeep (s : State) (b : List Byte) : WritesKeep 0x040 b 8 (IkSet s b) := by
  refine ⟨fun k t rest h => { h with }, fun k t hk h => ?_⟩
  rw [hostAccess_write_register (registerAt_ikey ⟨k, hk⟩), writeLocation, keyWrite_takesEffect h.idle h.unlocked]
  exact { h with words := h.words.set ⟨k, hk⟩ }

/-- Settles O59: both programs are runs of word writes over a key file, each write loading one word more. -/
theorem setKeysLoadTheKeys : Obligations.SetKeysLoadTheKeys := by
  intro s b hidle hlock
  refine ⟨fun hb => ?_, fun hb => ?_⟩
  · obtain ⟨t, hrun, hinputs, ht⟩ := run_writeWords [] 4 0x020 b _ { s with inputs := hostSETCK b } (ckSet_writesKeep s b)
      ⟨hidle, hlock, wordsLoaded_zero b _ _, rfl, rfl⟩ (List.append_nil _).symm
    have hkey : (ckOperand t).bytes = b := (blockOfWords_bytes t.ckey).trans (ht.words.bytes hb)
    exact ⟨t, hrun, hinputs, hkey, (ckLoaded_iff t).mpr fun i => (ht.words i i.isLt).2, ht.ikey, ht.iv⟩
  · obtain ⟨t, hrun, hinputs, ht⟩ := run_writeWords [] 8 0x040 b _ { s with inputs := hostSETIK b } (ikSet_writesKeep s b)
      ⟨hidle, hlock, wordsLoaded_zero b _ _, rfl, rfl⟩ (List.append_nil _).symm
    exact ⟨t, hrun, hinputs, ht.words.bytes hb, (ikLoaded_iff t).mpr fun i => (ht.words i i.isLt).2, ht.ckey, ht.iv⟩

end Sys2Proof.Machine
end

section
/-! What a command reads besides the operands of every command, and that it reads nothing else (30_encoding.md R83; 43_envelope.md
R196). -/

namespace Sys2Proof.Machine

/-! ## Replacing parts of the state under a command -/

/-- Replacing parts of the state by f before a completion comes to replacing parts by g after it, and f replaces none of what any
command may read: LEN, IN_BUF, BUF_SIZE, the free values and the random source. For a record update each law is an equation of
records. -/
structure Overlay (f g : State → State) : Prop where
  lenOperand_eq : ∀ s, lenOperand (f s) = lenOperand s := by intro s; rfl
  bufSize_eq : ∀ s, (f s).bufSize = s.bufSize := by intro s; rfl
  inputBytes_eq : ∀ s n, inputBytes (f s) n = inputBytes s n := by intro s n; rfl
  afterInput_comm : ∀ s n, afterInput (f s) n = f (afterInput s n) := by intro s n; rfl
  rngNext_eq : ∀ s, rngNext (f s) = rngNext s := by intro s; rfl
  rngDrawn_comm : ∀ s, rngDrawn (f s) = f (rngDrawn s) := by intro s; rfl
  raiseError_comm : ∀ e s, raiseError e (f s) = g (raiseError e s) := by intro e s; rfl
  finish_comm : ∀ out s, finish out (f s) = g (finish out s) := by intro out s; rfl

/-- f leaves the cipher key and its load bits. -/
def KeepsCk (f : State → State) : Prop := ∀ s, ckOperand (f s) = ckOperand s ∧ ckLoaded (f s) = ckLoaded s

/-- f leaves the integrity key and its load bits. -/
def KeepsIk (f : State → State) : Prop := ∀ s, ikOperand (f s) = ikOperand s ∧ ikLoaded (f s) = ikLoaded s

/-- f leaves the chaining input. -/
def KeepsIv (f : State → State) : Prop := ∀ s, ivOperand (f s) = ivOperand s

/-- f leaves STRICT_PAD. -/
def KeepsStrictPad (f : State → State) : Prop := ∀ s, (f s).strictPad = s.strictPad

/-- f leaves the operands R83 lists for a command, besides those of every command. -/
def KeepsOperands (f : State → State) : Instr → Prop
  | .envEncode => KeepsCk f ∧ KeepsIk f
  | .envDecode => KeepsCk f ∧ KeepsIk f ∧ KeepsStrictPad f
  | .aesEcbEnc | .aesEcbDec => KeepsCk f
  | .aesCbcEnc | .aesCbcDec => KeepsCk f ∧ KeepsIv f
  | .hmacSha256 => KeepsIk f
  | .pkcs7Pad => True
  | .pkcs7Unpad => KeepsStrictPad f

/-- The answer r' is r with g applied to its state. -/
def Carried (g : State → State) (r r' : Result) : Prop := ∀ t, r = .next t → r' = .next (g t)

theorem Carried.ite {g : State → State} {r r' q q' : Result} {p : Prop} [Decidable p] (hr : Carried g r r')
    (hq : Carried g q q') : Carried g (if p then r else q) (if p then r' else q') := by
  split
  · exact hr
  · exact hq

section
variable {f g : State → State}

theorem Overlay.fail (h : Overlay f g) (e : ErrCode) (s : State) : Carried g (fail e s) (fail e (f s)) := by
  rintro _ ⟨⟩
  rw [Machine.fail, h.raiseError_comm]

theorem Overlay.succeed (h : Overlay f g) (out : List Byte) (s : State) : Carried g (succeed out s) (succeed out (f s)) := by
  rintro _ ⟨⟩
  rw [Machine.succeed, h.finish_comm]

/-! ## The commands -/

theorem Overlay.rawCipher (h : Overlay f g) (hck : KeepsCk f) (mode : List Block → List Block) (s : State) :
    Carried g (rawCipher mode s) (rawCipher mode (f s)) := by
  simp only [Machine.rawCipher, blocklen, h.lenOperand_eq, h.bufSize_eq, h.inputBytes_eq, h.afterInput_comm, (hck s).2]
  exact .ite (h.fail _ _) (.ite (h.fail _ _) (h.succeed _ _))

theorem Overlay.execHmacSha256 (h : Overlay f g) (hik : KeepsIk f) (s : State) :
    Carried g (execHmacSha256 s) (execHmacSha256 (f s)) := by
  obtain ⟨hkey, hloaded⟩ := hik s
  simp only [Machine.execHmacSha256, h.lenOperand_eq, h.bufSize_eq, h.inputBytes_eq, h.afterInput_comm, hkey, hloaded]
  exact .ite (h.fail _ _) (.ite (h.fail _ _) (h.succeed _ _))

theorem Overlay.execPkcs7Pad (h : Overlay f g) (s : State) : Carried g (execPkcs7Pad s) (execPkcs7Pad (f s)) := by
  simp only [Machine.execPkcs7Pad, h.lenOperand_eq, h.bufSize_eq, h.inputBytes_eq, h.afterInput_comm]
  exact .ite (h.fail _ _) (h.succeed _ _)

theorem Overlay.execPkcs7Unpad (h : Overlay f g) (hstrict : KeepsStrictPad f) (s : State) :
    Carried g (execPkcs7Unpad s) (execPkcs7Unpad (f s)) := by
  simp only [Machine.execPkcs7Unpad, blocklen, h.lenOperand_eq, h.bufSize_eq, h.inputBytes_eq, h.afterInput_comm, hstrict s]
  refine .ite (h.fail _ _) ?_
  cases unpad s.strictPad (inputBytes s (lenOperand s)) with
  | none => exact h.fail _ _
  | some r => exact h.succeed _ _

theorem Overlay.execEncode (h : Overlay f g) (hck : KeepsCk f) (hik : KeepsIk f) (s : State) :
    Carried g (execEncode s) (execEncode (f s)) := by
  obtain ⟨hckey, hckLoaded⟩ := hck s
  obtain ⟨hikey, hikLoaded⟩ := hik s
  simp only [Machine.execEncode, encMax, keysLoaded, h.lenOperand_eq, h.bufSize_eq, h.inputBytes_eq, h.rngNext_eq,
    h.rngDrawn_comm, h.afterInput_comm, hckey, hckLoaded, hikey, hikLoaded]
  refine .ite (h.fail _ _) (.ite (h.fail _ _) ?_)
  cases rngNext s with
  | ok d => exact h.succeed _ _
  | fail => exact h.fail _ _

theorem Overlay.execDecode (h : Overlay f g) (hck : KeepsCk f) (hik : KeepsIk f) (hstrict : KeepsStrictPad f) (s : State) :
    Carried g (execDecode s) (execDecode (f s)) := by
  obtain ⟨hckey, hckLoaded⟩ := hck s
  obtain ⟨hikey, hikLoaded⟩ := hik s
  simp only [Machine.execDecode, keysLoaded, h.lenOperand_eq, h.bufSize_eq, h.inputBytes_eq, h.afterInput_comm, hckey,
    hckLoaded, hikey, hikLoaded, hstrict s]
  refine .ite (h.fail _ _) (.ite (h.fail _ _) (.ite (h.fail _ _) ?_))
  cases openEnvelope (ckOperand s) (ikOperand s) s.strictPad (inputBytes s (lenOperand s)) with
  | error e => exact h.fail _ _
  | ok r => exact h.succeed _ _

/-- A command's outcome is unmoved by what replaces none of its operands. -/
theorem Overlay.exec (h : Overlay f g) {i : Instr} (hi : KeepsOperands f i) (s : State) :
    Carried g (exec i s) (exec i (f s)) := by
  cases i with
  | envEncode =>
    obtain ⟨hck, hik⟩ := hi
    exact h.execEncode hck hik s
  | envDecode =>
    obtain ⟨hck, hik, hstrict⟩ := hi
    exact h.execDecode hck hik hstrict s
  | aesEcbEnc => simpa only [Machine.exec, execAesEcbEnc, (hi s).1] using h.rawCipher hi (ecbE (ckOperand s)) s
  | aesEcbDec => simpa only [Machine.exec, execAesEcbDec, (hi s).1] using h.rawCipher hi (ecbD (ckOperand s)) s
  | aesCbcEnc =>
    obtain ⟨hck, hiv⟩ := hi
    simpa only [Machine.exec, execAesCbcEnc, (hck s).1, hiv s] using h.rawCipher hck (cbcE (ckOperand s) (ivOperand s)) s
  | aesCbcDec =>
    obtain ⟨hck, hiv⟩ := hi
    simpa only [Machine.exec, execAesCbcDec, (hck s).1, hiv s] using h.rawCipher hck (cbcD (ckOperand s) (ivOperand s)) s
  | hmacSha256 => exact h.execHmacSha256 hi s
  | pkcs7Pad => exact h.execPkcs7Pad s
  | pkcs7Unpad => exact h.execPkcs7Unpad hi s

theorem keepsOperands_of_keepsAll (hck : KeepsCk f) (hik : KeepsIk f) (hiv : KeepsIv f) (hstrict : KeepsStrictPad f)
    (i : Instr) : KeepsOperands f i := by
  cases i with
  | envEncode => exact ⟨hck, hik⟩
  | envDecode => exact ⟨hck, hik, hstrict⟩
  | aesEcbEnc | aesEcbDec => exact hck
  | aesCbcEnc | aesCbcDec => exact ⟨hck, hiv⟩
  | hmacSha256 => exact hik
  | pkcs7Pad => trivial
  | pkcs7Unpad => exact hstrict

end

/-! ## The replacements -/

/-- Two replacements in turn. -/
theorem Overlay.comp {f g f' g' : State → State} (h' : Overlay f' g') (h : Overlay f g) : Overlay (f' ∘ f) (g' ∘ g) where
  lenOperand_eq s := (h'.lenOperand_eq _).trans (h.lenOperand_eq s)
  bufSize_eq s := (h'.bufSize_eq _).trans (h.bufSize_eq s)
  inputBytes_eq s n := (h'.inputBytes_eq _ n).trans (h.inputBytes_eq s n)
  afterInput_comm s n := (h'.afterInput_comm _ n).trans (congrArg f' (h.afterInput_comm s n))
  rngNext_eq s := (h'.rngNext_eq _).trans (h.rngNext_eq s)
  rngDrawn_comm s := (h'.rngDrawn_comm _).trans (congrArg f' (h.rngDrawn_comm s))
  raiseError_comm e s := (h'.raiseError_comm e _).trans (congrArg g' (h.raiseError_comm e s))
  finish_comm out s := (h'.finish_comm out _).trans (congrArg g' (h.finish_comm out s))

/-- Another cipher key with its load bits. -/
def replaceCk (ck : Vector Word 4) (w : BitVec 4) (s : State) : State := { s with ckey := ck, ckWritten := w }

/-- Another integrity key with its load bits. -/
def replaceIk (ik : Vector Word 8) (w : BitVec 8) (s : State) : State := { s with ikey := ik, ikWritten := w }

/-- Another chaining input. -/
def replaceIv (iv : Vector Word 4) (s : State) : State := { s with iv := iv }

/-- Another STRICT_PAD. -/
def replaceStrictPad (b : Bool) (s : State) : State := { s with strictPad := b }

/-- Another IRQ_EN, KEY_LOCK and WERR, which a completion leaves. -/
def replaceLeft (irqEn keyLock werr : Bool) (s : State) : State :=
  { s with irqEn := irqEn, keyLock := keyLock, werr := werr }

/-- Another DONE, ERR, OUT_LEN and OUT_BUF, which a completion writes. -/
def replaceWritten (done : Bool) (err : ErrCode) (outLen : Word) (outBuf : Memory) (s : State) : State :=
  { s with done := done, err := err, outLen := outLen, outBuf := outBuf }

theorem overlay_replaceCk (ck : Vector Word 4) (w : BitVec 4) : Overlay (replaceCk ck w) (replaceCk ck w) := {}

theorem overlay_replaceIk (ik : Vector Word 8) (w : BitVec 8) : Overlay (replaceIk ik w) (replaceIk ik w) := {}

theorem overlay_replaceIv (iv : Vector Word 4) : Overlay (replaceIv iv) (replaceIv iv) := {}

theorem overlay_replaceStrictPad (b : Bool) : Overlay (replaceStrictPad b) (replaceStrictPad b) := {}

theorem overlay_replaceLeft (irqEn keyLock werr : Bool) :
    Overlay (replaceLeft irqEn keyLock werr) (replaceLeft irqEn keyLock werr) := {}

/-- What a completion writes anew is gone after it. -/
theorem overlay_replaceWritten (done : Bool) (err : ErrCode) (outLen : Word) (outBuf : Memory) :
    Overlay (replaceWritten done err outLen outBuf) id := {}

/-- Settles O15: each clause makes its replacements one after the other, and they keep the operands of its commands. -/
theorem commandsIgnoreOtherOperands : Obligations.CommandsIgnoreOtherOperands := by
  intro s t ck ik iv ckw ikw b
  have hck := overlay_replaceCk ck ckw
  have hik := overlay_replaceIk ik ikw
  have hiv := overlay_replaceIv iv
  have hpad := overlay_replaceStrictPad b
  refine ⟨fun i hi => ?ecb, fun i hi => ?cbc, ?hmac, ?pad, ?unpad, ?encode, ?decode,
    fun i irqEn keyLock done werr err outLen outBuf => ?status⟩
  case ecb =>
    have h := hpad.comp (hiv.comp hik)
    rcases List.mem_pair.mp hi with rfl | rfl
    · exact h.exec (i := .aesEcbEnc) (fun _ => ⟨rfl, rfl⟩) s t
    · exact h.exec (i := .aesEcbDec) (fun _ => ⟨rfl, rfl⟩) s t
  case cbc =>
    have h := hpad.comp hik
    rcases List.mem_pair.mp hi with rfl | rfl
    · exact h.exec (i := .aesCbcEnc) ⟨fun _ => ⟨rfl, rfl⟩, fun _ => rfl⟩ s t
    · exact h.exec (i := .aesCbcDec) ⟨fun _ => ⟨rfl, rfl⟩, fun _ => rfl⟩ s t
  case hmac => exact (hpad.comp (hiv.comp hck)).exec (i := .hmacSha256) (fun _ => ⟨rfl, rfl⟩) s t
  case pad => exact (hpad.comp (hiv.comp (hik.comp hck))).exec (i := .pkcs7Pad) trivial s t
  case unpad => exact (hiv.comp (hik.comp hck)).exec (i := .pkcs7Unpad) (fun _ => rfl) s t
  case encode =>
    exact (hpad.comp hiv).exec (i := .envEncode) ⟨fun _ => ⟨rfl, rfl⟩, fun _ => ⟨rfl, rfl⟩⟩ s t
  case decode => exact hiv.exec (i := .envDecode) ⟨fun _ => ⟨rfl, rfl⟩, fun _ => ⟨rfl, rfl⟩, fun _ => rfl⟩ s t
  case status =>
    have h := (overlay_replaceLeft irqEn keyLock werr).comp (overlay_replaceWritten done err outLen outBuf)
    exact h.exec (keepsOperands_of_keepsAll (fun _ => ⟨rfl, rfl⟩) (fun _ => ⟨rfl, rfl⟩) (fun _ => rfl) (fun _ => rfl) i) s t

end Sys2Proof.Machine
end

section
/-! Each block function and each chaining mode undoes its inverse (40_aes.md R108, R109, R111, R112). -/

namespace Sys2Proof.Machine

/-! ## The block functions -/

/-- Each round of the inverse cipher takes off one round of the forward cipher; the first half round stays on. -/
theorem decRounds_encRounds (k x : Block) (n : Nat) :
    decRounds k n (shiftRows (subBytes (encRounds k n x))) = shiftRows (subBytes (addRoundKey (roundKey k 0) x)) := by
  induction n with
  | zero => rfl
  | succ n ih =>
    rw [decRounds, invShiftRows_shiftRows, invSubBytes_subBytes, encRounds, addRoundKey_addRoundKey,
      invMixColumns_mixColumns, ih]

/-- Each round of the forward cipher takes off the innermost round left of the inverse cipher. -/
theorem encRounds_decRounds (k : Block) (n : Nat) :
    ∀ s : Block, encRounds k n (addRoundKey (roundKey k 0) (invSubBytes (invShiftRows (decRounds k n s)))) =
      invSubBytes (invShiftRows s) := by
  induction n with
  | zero => exact fun s => addRoundKey_addRoundKey _ _
  | succ n ih =>
    intro s
    rw [encRounds, decRounds, ih, subBytes_invSubBytes, shiftRows_invShiftRows, mixColumns_invMixColumns,
      addRoundKey_addRoundKey]

@[simp] theorem aesD_aesE (k x : Block) : aesD k (aesE k x) = x := by
  rw [aesD, aesE, addRoundKey_addRoundKey, decRounds_encRounds, invShiftRows_shiftRows, invSubBytes_subBytes,
    addRoundKey_addRoundKey]

@[simp] theorem aesE_aesD (k x : Block) : aesE k (aesD k x) = x := by
  rw [aesE, aesD, encRounds_decRounds, subBytes_invSubBytes, shiftRows_invShiftRows, addRoundKey_addRoundKey]

/-- Settles O19: the rounds cancel by induction on their number, the two half rounds at the ends directly. -/
theorem aesBlockFunctionsAreInverse : Obligations.AesBlockFunctionsAreInverse :=
  fun k x => ⟨aesD_aesE k x, aesE_aesD k x⟩

/-! ## The CBC mode -/

/-- Both modes chain through the same ciphertext block, so the induction is over all chaining values. -/
theorem cbcD_cbcE (k : Block) (p : List Block) : ∀ iv : Block, cbcD k iv (cbcE k iv p) = p := by
  induction p with
  | nil => exact fun _ => rfl
  | cons p ps ih => intro iv; rw [cbcE, cbcD, aesD_aesE, Block.xor_xor_cancel, ih]

theorem Block.xor_xor_xor_cancel (a b c : Block) : (a.xor b).xor (b.xor c) = a.xor c := by
  rw [← Block.xor_assoc, Block.xor_xor_cancel]

/-- Settles O20: the chaining input enters the first plaintext block only, and there by one XOR. -/
theorem cbcModesAreInverse : Obligations.CbcModesAreInverse :=
  ⟨fun k iv p => cbcD_cbcE k p iv, fun k iv iv' c cs =>
    ⟨(aesD k c).xor iv, cbcD k c cs, rfl, by rw [cbcD, Block.xor_xor_xor_cancel]⟩⟩

end Sys2Proof.Machine
end

section
/-! The field inverse behind the S-box (40_aes.md R101). -/

namespace Sys2Proof.Machine

/-! ## Associativity of the field product -/

theorem gfMul_xtimes_left (n : Nat) (a b : Byte) : gfMul (xtimes n a) b = xtimes n (gfMul a b) := by
  induction n with
  | zero => rfl
  | succ n ih => rw [xtimes, gfMul_xtime_left, ih, xtimes]

/-- The terms of the first factor go through a further product one by one. -/
theorem gfMul_gfPartial_left (a b c : Byte) (n : Nat) : gfMul (gfPartial a b n) c = gfPartial a (gfMul b c) n := by
  induction n with
  | zero => exact gfMul_zero_left c
  | succ n ih =>
    have hterm : gfMul (if a.getLsbD n then xtimes n b else 0) c = if a.getLsbD n then xtimes n (gfMul b c) else 0 := by
      rw [← gfMul_xtimes_left]
      split
      · rfl
      · exact gfMul_zero_left c
    rw [gfPartial, gfMul_xor_left, ih, hterm, gfPartial]

theorem gfMul_assoc (a b c : Byte) : gfMul (gfMul a b) c = gfMul a (gfMul b c) := gfMul_gfPartial_left a b c 8

theorem gfMul_one_right : ∀ a : Byte, gfMul a 0x01 = a := by decide +kernel

/-! ## The affine map and its inverse -/

/-- The affine map of R101. -/
def sboxAffine (b : Byte) : Byte :=
  b ^^^ b.rotateLeft 1 ^^^ b.rotateLeft 2 ^^^ b.rotateLeft 3 ^^^ b.rotateLeft 4 ^^^ 0x63

/-- The inverse of the affine map. -/
def sboxAffineInv (y : Byte) : Byte := y.rotateLeft 1 ^^^ y.rotateLeft 3 ^^^ y.rotateLeft 6 ^^^ 0x05

theorem sboxAffine_sboxAffineInv : ∀ y : Byte, sboxAffine (sboxAffineInv y) = y := by decide +kernel

/-! ## The inverse that the table holds -/

/-- The byte that the affine map takes to the table entry of x. -/
def tableInv (x : Byte) : Byte := sboxAffineInv (sbox x)

theorem tableInv_zero : tableInv 0 = 0 := by decide

/-- The 256 table entries of R102 against their definition. -/
theorem gfMul_tableInv_left : ∀ x : Byte, x ≠ 0 → gfMul (tableInv x) x = 0x01 := by decide +kernel

/-- Inverses are unique: a product with the inverse the table holds takes x off x • b. -/
theorem eq_tableInv_of_gfMul_eq_one {x b : Byte} (h : gfMul x b = 0x01) : b = tableInv x := by
  have hx : x ≠ 0 := by
    rintro rfl
    exact absurd ((gfMul_zero_left b).symm.trans h) (by decide)
  calc b
    _ = gfMul 0x01 b := (gfMul_one_left b).symm
    _ = gfMul (gfMul (tableInv x) x) b := by rw [gfMul_tableInv_left x hx]
    _ = gfMul (tableInv x) (gfMul x b) := gfMul_assoc ..
    _ = tableInv x := by rw [h, gfMul_one_right]

/-- Settles O22: the table holds one inverse of each byte but 0, and a byte has no other. -/
theorem sboxIsAffineOfInverse : Obligations.SboxIsAffineOfInverse := by
  intro x b h
  have hb : b = tableInv x := by
    rcases h with h | ⟨rfl, rfl⟩
    · exact eq_tableInv_of_gfMul_eq_one h
    · rw [tableInv_zero]
  calc sbox x
    _ = sboxAffine (tableInv x) := (sboxAffine_sboxAffineInv (sbox x)).symm
    _ = sboxAffine b := by rw [hb]

end Sys2Proof.Machine
end

section
/-! The outcomes of the raw AES commands (40_aes.md R113, R120 to R123; 60_exceptions.md R225, R230). -/

namespace Sys2Proof.Machine

/-- A success whose output fits a legal OUT_BUF shows that output: OUT_LEN holds any such length. -/
theorem completedWith_finish {out : List Byte} {s : State} (hsize : Config.LegalBufSize s.bufSize)
    (hout : out.length ≤ s.bufSize) : CompletedWith (finish out s) out := by
  have hlen : (finish out s).outLen.toNat = out.length := by
    rw [finish_outLen, BitVec.toNat_ofNat, Nat.mod_eq_of_lt (by omega)]
  exact ⟨hlen, fun i _ => Memory.get_ofOutput out i, rfl, rfl, rfl⟩

theorem restUnchanged_finish {s u : State} (h : Consumed s u) (out : List Byte) : RestUnchanged s (finish out u) := by
  rw [Consumed] at h
  rw [h]
  simp [RestUnchanged]

/-! ## The checks -/

theorem rawCipher_of_not_blocklen {s : State}
    (h : ¬(16 ≤ lenOperand s ∧ lenOperand s % 16 = 0 ∧ lenOperand s ≤ s.bufSize)) (mode : List Block → List Block) :
    rawCipher mode s = .next (raiseError .lengthError s) := by
  rw [← blocklen_iff] at h
  rcases rawCipher_cases mode s with ⟨_, hr⟩ | ⟨hl, _⟩ | ⟨hl, _⟩
  · exact hr
  · exact absurd hl h
  · exact absurd hl h

theorem rawCipher_of_key_not_loaded {s : State}
    (hlen : 16 ≤ lenOperand s ∧ lenOperand s % 16 = 0 ∧ lenOperand s ≤ s.bufSize) (hkey : s.ckWritten ≠ 0xF)
    (mode : List Block → List Block) : rawCipher mode s = .next (raiseError .keyNotLoaded s) := by
  rw [← blocklen_iff] at hlen
  rcases rawCipher_cases mode s with ⟨hl, _⟩ | ⟨_, _, hr⟩ | ⟨_, hk, _⟩
  · exact absurd hlen (by simp [hl])
  · exact hr
  · exact absurd (beq_iff_eq.mp hk) hkey

theorem rawCipher_of_checks {s : State}
    (hlen : 16 ≤ lenOperand s ∧ lenOperand s % 16 = 0 ∧ lenOperand s ≤ s.bufSize) (hkey : s.ckWritten = 0xF)
    (mode : List Block → List Block) :
    rawCipher mode s =
      .next (finish (blocksBytes (mode (blocksOf (inputBytes s (lenOperand s))))) (afterInput s (lenOperand s))) := by
  rw [← blocklen_iff] at hlen
  rcases rawCipher_cases mode s with ⟨hl, _⟩ | ⟨_, hk, _⟩ | ⟨_, _, hr⟩
  · exact absurd hlen (by simp [hl])
  · exact absurd hkey (by simpa [ckLoaded] using hk)
  · exact hr

/-- Each raw AES command is its mode under the shared checks. -/
theorem exec_rawAes {i : Instr} (hi : i ∈ [Instr.aesEcbEnc, .aesEcbDec, .aesCbcEnc, .aesCbcDec]) (s : State) :
    ∃ mode, exec i s = rawCipher mode s := by
  simp only [List.mem_cons, List.not_mem_nil, or_false] at hi
  rcases hi with rfl | rfl | rfl | rfl <;> exact ⟨_, rfl⟩

/-- Settles O18: the checks are the same under every mode. -/
theorem rawAesCommandsCheckOrder : Obligations.RawAesCommandsCheckOrder := by
  intro s i hi
  obtain ⟨mode, hexec⟩ := exec_rawAes hi s
  rw [hexec]
  exact ⟨fun hlen => rawCipher_of_not_blocklen hlen mode,
    fun hmin hwhole hmax hkey => rawCipher_of_key_not_loaded ⟨hmin, hwhole, hmax⟩ hkey mode⟩

/-! ## The output -/

/-- A mode that keeps the number of blocks turns LEN bytes into LEN bytes. -/
theorem rawCipher_output {s : State} (hsize : Config.LegalBufSize s.bufSize)
    (hlen : 16 ≤ lenOperand s ∧ lenOperand s % 16 = 0 ∧ lenOperand s ≤ s.bufSize) (hkey : s.ckWritten = 0xF)
    {mode : List Block → List Block} (hmode : ∀ p, (mode p).length = p.length) :
    ∃ t, rawCipher mode s = .next t ∧ RestUnchanged s t ∧ t.outLen = s.len ∧
      CompletedWith t (blocksBytes (mode (blocksOf (inputBytes s (lenOperand s))))) := by
  have hout : (blocksBytes (mode (blocksOf (inputBytes s (lenOperand s))))).length = lenOperand s := by
    simp only [blocksBytes_length, hmode, blocksOf_length, inputBytes_length]
    omega
  refine ⟨_, rawCipher_of_checks hlen hkey mode, restUnchanged_finish (consumed_afterInput s _) _, ?_,
    completedWith_finish hsize (hout.trans_le hlen.2.2)⟩
  rw [finish_outLen, hout, lenOperand, BitVec.ofNat_toNat, BitVec.setWidth_eq]

/-- Settles O17: all four modes keep the number of blocks. -/
theorem rawAesCommandsOutput : Obligations.RawAesCommandsOutput := by
  intro s hsize hmin hwhole hmax hkey
  have hlen := And.intro hmin (And.intro hwhole hmax)
  exact ⟨rawCipher_output hsize hlen hkey (ecbE_length (ckOperand s)),
    rawCipher_output hsize hlen hkey (ecbD_length (ckOperand s)),
    rawCipher_output hsize hlen hkey fun p => cbcE_length (ckOperand s) p (ivOperand s),
    rawCipher_output hsize hlen hkey fun p => cbcD_length (ckOperand s) p (ivOperand s)⟩

end Sys2Proof.Machine
end

section
/-! The tag comparison (41_sha256_hmac.md R152). -/

namespace Sys2Proof.Machine

/-- An OR of bytewise differences is 0 exactly when it starts at 0 and no byte differs. -/
theorem foldl_or_differences_eq_zero_iff {a b : List Byte} (h : a.length = b.length) (acc : Byte) :
    (List.zipWith (· ^^^ ·) a b).foldl (· ||| ·) acc = 0 ↔ acc = 0 ∧ a = b := by
  induction a generalizing b acc with
  | nil =>
    cases b with
    | nil => simp
    | cons y b => cases h
  | cons x a ih =>
    cases b with
    | nil => cases h
    | cons y b =>
      have htail := ih (Nat.succ.inj h) (acc ||| (x ^^^ y))
      rw [List.zipWith_cons_cons, List.foldl_cons, htail, List.cons.injEq]
      have hbyte : acc ||| (x ^^^ y) = 0 ↔ acc = 0 ∧ x = y :=
        BitVec.or_eq_zero_iff.trans (and_congr_right' BitVec.xor_eq_zero_iff)
      rw [hbyte, and_assoc]

/-- Sequences of one length compare equal exactly when they are equal. -/
theorem ctEq_iff {a b : List Byte} (h : a.length = b.length) : ctEq a b = true ↔ a = b :=
  calc ctEq a b = true
    _ ↔ ctDiff a b = 0 := beq_iff_eq
    _ ↔ a = b := (foldl_or_differences_eq_zero_iff h 0).trans (and_iff_right rfl)

/-- Settles O25: two tags have one length. -/
theorem tagComparisonIsEquality : Obligations.TagComparisonIsEquality :=
  fun _ _ ha hb => ctEq_iff (ha.trans hb.symm)

end Sys2Proof.Machine
end

section
/-! SHA-256's padding (41_sha256_hmac.md R141). -/

namespace Sys2Proof.Machine

/-! ## The zero bytes -/

/-- The number of zero bytes that the padding of an ℓ-byte message holds. -/
def shaZeroCount (l : Nat) : Nat := (55 + 64 - l % 64) % 64

theorem shaPad_eq (m : List Byte) :
    shaPad m = m ++ [0x80] ++ List.replicate (shaZeroCount m.length) 0 ++ be64Bytes (BitVec.ofNat 64 (8 * m.length)) := rfl

/-- R141's `k = (55 − ℓ) mod 64`, which is of integers. -/
theorem shaZeroCount_eq_emod (l : Nat) : (shaZeroCount l : Int) = (55 - (l : Int)) % 64 := by
  rw [shaZeroCount]
  omega

theorem shaZeroCount_wholeBlocks (l : Nat) : (l + 1 + shaZeroCount l + 8) % 64 = 0 := by
  rw [shaZeroCount]
  omega

/-- The count is below 64, so no smaller one has its remainder. -/
theorem shaZeroCount_least {l j : Nat} (hj : j < shaZeroCount l) : (l + 1 + j + 8) % 64 ≠ 0 := by
  rw [shaZeroCount] at hj
  omega

/-! ## The bit length -/

@[simp] theorem be64Bytes_length (x : BitVec 64) : (be64Bytes x).length = 8 := rfl

theorem wordByte_toNat (w : Word) (j : Nat) : (wordByte w j).toNat = w.toNat / 2 ^ (8 * j) % 256 := by
  rw [wordByte, BitVec.extractLsb'_toNat, Nat.shiftRight_eq_div_pow]

/-- Reading on through the four bytes of a word, most significant first. -/
theorem foldl_beBytes (w : Word) (acc : Nat) :
    (beBytes w).foldl (fun acc b => 256 * acc + b.toNat) acc = 2 ^ 32 * acc + w.toNat := by
  have hw : w.toNat < 2 ^ 32 := w.isLt
  simp only [beBytes, List.foldl_cons, List.foldl_nil, wordByte_toNat]
  omega

/-- The two halves of a 64-bit value, read one after the other, give it back. -/
theorem foldl_be64Bytes (x : BitVec 64) : (be64Bytes x).foldl (fun acc b => 256 * acc + b.toNat) 0 = x.toNat := by
  have hx : x.toNat < 2 ^ 64 := x.isLt
  rw [be64Bytes, List.foldl_append, foldl_beBytes, foldl_beBytes, BitVec.extractLsb'_toNat, BitVec.extractLsb'_toNat,
    Nat.shiftRight_eq_div_pow]
  omega

theorem shaPad_length (m : List Byte) : (shaPad m).length = m.length + 1 + shaZeroCount m.length + 8 := by
  simp only [shaPad_eq, List.length_append, List.length_singleton, List.length_replicate, be64Bytes_length]

/-- Settles O24: the laws of the count of zero bytes, and the bytes of a 64-bit value read back. -/
theorem shaPaddingIsLeast : Obligations.ShaPaddingIsLeast := by
  refine ⟨fun m => ⟨shaZeroCount m.length, shaPad_eq m, shaZeroCount_eq_emod _, ?_, fun _ => shaZeroCount_least⟩,
    fun n hn => ⟨be64Bytes_length _, ?_⟩, fun m => ⟨fun h => ?_, fun h => ?_⟩⟩
  · rw [shaPad_length, shaZeroCount_wholeBlocks]
  · rw [foldl_be64Bytes, BitVec.toNat_ofNat, Nat.mod_eq_of_lt hn]
  · rw [shaPad_length, h]; rfl
  · rw [shaPad_length, h]; rfl

end Sys2Proof.Machine
end

section
/-! The outcomes of HMAC_SHA256 (41_sha256_hmac.md R155; 60_exceptions.md R222, R230). -/

namespace Sys2Proof.Machine

theorem ikLoaded_iff_allWritten (s : State) : ikLoaded s = true ↔ s.ikWritten = 0xFF := beq_iff_eq

theorem exec_hmacSha256 (s : State) : exec .hmacSha256 s = execHmacSha256 s := rfl

theorem execHmacSha256_of_tooLong {s : State} (hlen : s.bufSize < lenOperand s) :
    execHmacSha256 s = .next (raiseError .lengthError s) := if_pos hlen

theorem execHmacSha256_of_keyNotLoaded {s : State} (hlen : lenOperand s ≤ s.bufSize) (hkey : s.ikWritten ≠ 0xFF) :
    execHmacSha256 s = .next (raiseError .keyNotLoaded s) := by
  have hunloaded : ikLoaded s = false := Bool.eq_false_iff.mpr (mt (ikLoaded_iff_allWritten s).mp hkey)
  rw [execHmacSha256, if_neg hlen.not_gt, hunloaded]
  rfl

theorem execHmacSha256_of_checks {s : State} (hlen : lenOperand s ≤ s.bufSize) (hkey : s.ikWritten = 0xFF) :
    execHmacSha256 s =
      .next (finish (hmac (ikOperand s) (inputBytes s (lenOperand s))) (afterInput s (lenOperand s))) := by
  have hloaded : ikLoaded s = true := (ikLoaded_iff_allWritten s).mpr hkey
  rw [execHmacSha256, if_neg hlen.not_gt, hloaded]
  rfl

/-- Settles O23: an HMAC has 32 bytes, which every legal OUT_BUF holds. -/
theorem hmacCommandOutcome : Obligations.HmacCommandOutcome := by
  intro s hsize
  simp only [exec_hmacSha256]
  refine ⟨fun hlen hkey => ⟨_, execHmacSha256_of_checks hlen hkey, restUnchanged_finish (consumed_afterInput s _) _, ?_, ?_⟩,
    execHmacSha256_of_tooLong, execHmacSha256_of_keyNotLoaded⟩
  · rw [finish_outLen, hmac_length]; rfl
  · have hfits : (hmac (ikOperand s) (inputBytes s (lenOperand s))).length ≤ s.bufSize := by
      rw [hmac_length]
      omega
    exact completedWith_finish hsize hfits

end Sys2Proof.Machine
end

section
/-! PKCS#7 padding and its removal (42_pkcs7.md R170 to R174). -/

namespace Sys2Proof.Machine

/-! ## Padding -/

theorem padLength_range (l : Nat) : 1 ≤ padLength l ∧ padLength l ≤ 16 := by
  rw [padLength]
  omega

/-- Padding fills up the block that the sequence leaves incomplete, or adds a whole one. -/
theorem add_padLength (l : Nat) : l + padLength l = 16 * (l / 16 + 1) := by
  rw [padLength]
  omega

/-- One byte holds any pad length. -/
theorem toNat_ofNat_padLength (l : Nat) : (BitVec.ofNat 8 (padLength l)).toNat = padLength l := by
  obtain ⟨-, hmax⟩ := padLength_range l
  rw [BitVec.toNat_ofNat, Nat.mod_eq_of_lt (by omega)]

theorem pad_length_eq_blocks (m : List Byte) : (pad m).length = 16 * (m.length / 16 + 1) :=
  (pad_length m).trans (add_padLength m.length)

theorem pad_of_wholeBlocks {m : List Byte} (h : m.length % 16 = 0) : pad m = m ++ List.replicate 16 0x10 := by
  have hp : padLength m.length = 16 := by rw [padLength, h]
  rw [pad, hp]
  rfl

/-- Settles O26: the pad length is R170's p. -/
theorem padAppendsPBytesOfValueP : Obligations.PadAppendsPBytesOfValueP := by
  intro m
  obtain ⟨hmin, hmax⟩ := padLength_range m.length
  exact ⟨padLength m.length, hmin, hmax, rfl, rfl, pad_length m, pad_length_eq_blocks m, pad_of_wholeBlocks⟩

/-! ## The two checks -/

theorem lastByte_of_getElem? {d : List Byte} {p : Byte} (h : d[d.length - 1]? = some p) : lastByte d = p := by
  rw [lastByte, byteAt, List.getD_eq_getElem?_getD, h, Option.getD_some]

theorem unpadLax_of_outOfRange {d : List Byte} (h : (lastByte d).toNat = 0 ∨ 16 < (lastByte d).toNat) :
    unpadLax d = none := if_pos h

theorem unpadStrict_of_outOfRange {d : List Byte} (h : (lastByte d).toNat = 0 ∨ 16 < (lastByte d).toNat) :
    unpadStrict d = none := if_pos h

theorem unpadLax_of_inRange {d : List Byte} (hmin : 1 ≤ (lastByte d).toNat) (hmax : (lastByte d).toNat ≤ 16) :
    unpadLax d = some (d.take (d.length - (lastByte d).toNat)) := if_neg (by omega)

/-- The bytes R172 checks: each of the last p equals the last byte, whose value p is. -/
def PadBytesAgree (d : List Byte) : Prop := ∀ b ∈ d.drop (d.length - (lastByte d).toNat), b = lastByte d

theorem padBytesAgree_iff_not_any (d : List Byte) :
    PadBytesAgree d ↔ ¬(d.drop (d.length - (lastByte d).toNat)).any (fun b => b != lastByte d) = true := by
  simp [PadBytesAgree]

/-- R172 writes the check with the indices of the padding bytes. -/
theorem padBytesAgree_iff_getElem? (d : List Byte) :
    PadBytesAgree d ↔ ∀ i, d.length - (lastByte d).toNat ≤ i → i < d.length → d[i]? = some (lastByte d) := by
  constructor
  · intro h i hfrom hi
    have hmem : d[i] ∈ d.drop (d.length - (lastByte d).toNat) :=
      List.mem_drop_iff_getElem.mpr ⟨i - (d.length - (lastByte d).toNat), by omega, by congr 1; omega⟩
    rw [List.getElem?_eq_getElem hi, h _ hmem]
  · intro h b hb
    obtain ⟨j, hj, rfl⟩ := List.mem_drop_iff_getElem.mp hb
    have hat := h (d.length - (lastByte d).toNat + j) (by omega) (by omega)
    rw [List.getElem?_eq_getElem (by omega)] at hat
    exact Option.some.inj hat

/-- Where the padding bytes agree, the strict setting adds nothing to the lax one. -/
theorem unpadStrict_of_padBytesAgree {d : List Byte} (h : PadBytesAgree d) : unpadStrict d = unpadLax d := by
  rw [unpadStrict, if_neg ((padBytesAgree_iff_not_any d).mp h), unpadLax]

theorem unpadStrict_of_not_padBytesAgree {d : List Byte} (h : ¬PadBytesAgree d) : unpadStrict d = none := by
  rw [unpadStrict, if_pos (not_not.mp (mt (padBytesAgree_iff_not_any d).mpr h)), ite_self]

/-- Settles O27: the last byte's range decides both settings, then the agreement of the padding bytes the strict one. -/
theorem unpadChecks : Obligations.UnpadChecks := by
  intro d p hlen _ hlast
  obtain rfl := lastByte_of_getElem? hlast
  refine ⟨fun hrange => ⟨unpadLax_of_outOfRange hrange, unpadStrict_of_outOfRange hrange⟩, fun hmin hmax => ?_⟩
  have hlax := unpadLax_of_inRange hmin hmax
  refine ⟨hlax, ?_, ?wrong, ?right⟩
  · rw [List.length_take]
    omega
  case wrong =>
    rintro ⟨i, hfrom, hi, hne⟩
    exact unpadStrict_of_not_padBytesAgree fun hagree => hne ((padBytesAgree_iff_getElem? d).mp hagree i hfrom hi)
  case right =>
    intro hall
    rw [unpadStrict_of_padBytesAgree ((padBytesAgree_iff_getElem? d).mpr hall), hlax]

/-! ## Unpadding a padded sequence -/

theorem lastByte_pad (m : List Byte) : lastByte (pad m) = BitVec.ofNat 8 (padLength m.length) := by
  obtain ⟨hmin, -⟩ := padLength_range m.length
  apply lastByte_of_getElem?
  rw [pad_length, pad, List.getElem?_append_right (by omega), List.getElem?_replicate_of_lt (by omega)]

theorem pad_length_sub_lastByte (m : List Byte) : (pad m).length - (lastByte (pad m)).toNat = m.length := by
  rw [lastByte_pad, toNat_ofNat_padLength, pad_length, Nat.add_sub_cancel]

theorem padBytesAgree_pad (m : List Byte) : PadBytesAgree (pad m) := by
  rw [PadBytesAgree, pad_length_sub_lastByte, lastByte_pad, pad, List.drop_left]
  exact fun _ => List.eq_of_mem_replicate

theorem unpadLax_pad (m : List Byte) : unpadLax (pad m) = some m := by
  have hp : (lastByte (pad m)).toNat = padLength m.length := by rw [lastByte_pad, toNat_ofNat_padLength]
  obtain ⟨hmin, hmax⟩ := padLength_range m.length
  rw [unpadLax_of_inRange (hp ▸ hmin) (hp ▸ hmax), pad_length_sub_lastByte, pad, List.take_left]

theorem unpad_pad (strict : Bool) (m : List Byte) : unpad strict (pad m) = some m := by
  cases strict with
  | false => exact unpadLax_pad m
  | true => exact (unpadStrict_of_padBytesAgree (padBytesAgree_pad m)).trans (unpadLax_pad m)

/-- The strict setting refuses more and returns nothing else. -/
theorem unpadLax_of_unpadStrict {d r : List Byte} (h : unpadStrict d = some r) : unpadLax d = some r := by
  by_cases hagree : PadBytesAgree d
  · exact (unpadStrict_of_padBytesAgree hagree).symm.trans h
  · rw [unpadStrict_of_not_padBytesAgree hagree] at h
    cases h

/-- Settles O28: PAD's bytes agree, and where the bytes of a sequence agree the settings do too. -/
theorem unpadUndoesPad : Obligations.UnpadUndoesPad := ⟨unpad_pad, fun _ _ => unpadLax_of_unpadStrict⟩

end Sys2Proof.Machine
end

section
/-! The outcomes of PKCS7_PAD and PKCS7_UNPAD (42_pkcs7.md R175, R176; 60_exceptions.md R226, R230). -/

namespace Sys2Proof.Machine

/-! ## Error completions -/

theorem completedWithError_raiseError (e : ErrCode) (s : State) : CompletedWithError (raiseError e s) e :=
  ⟨rfl, fun i _ => Memory.get_ofOutput [] i, rfl, rfl, rfl⟩

theorem restUnchanged_raiseError {s u : State} (h : Consumed s u) (e : ErrCode) : RestUnchanged s (raiseError e u) := by
  rw [Consumed] at h
  rw [h]
  simp [RestUnchanged]

/-! ## PKCS7_PAD -/

theorem exec_pkcs7Pad (s : State) : exec .pkcs7Pad s = execPkcs7Pad s := rfl

theorem execPkcs7Pad_of_tooLong {s : State} (hlen : s.bufSize - 1 < lenOperand s) :
    execPkcs7Pad s = .next (raiseError .lengthError s) := if_pos hlen

theorem execPkcs7Pad_of_fits {s : State} (hlen : lenOperand s ≤ s.bufSize - 1) :
    execPkcs7Pad s = .next (finish (pad (inputBytes s (lenOperand s))) (afterInput s (lenOperand s))) :=
  if_neg hlen.not_gt

/-- Settles O29: BUF_SIZE is whole blocks, so the padding of a shorter input still fits. -/
theorem pkcs7PadOutcome : Obligations.Pkcs7PadOutcome := by
  intro s hsize
  simp only [exec_pkcs7Pad]
  refine ⟨fun hlen => ?_, execPkcs7Pad_of_tooLong⟩
  have hout : (pad (inputBytes s (lenOperand s))).length = 16 * (lenOperand s / 16 + 1) := by
    rw [pad_length_eq_blocks, inputBytes_length]
  have hfits : (pad (inputBytes s (lenOperand s))).length ≤ s.bufSize := by
    rw [hout]
    omega
  obtain ⟨houtLen, hrest⟩ := completedWith_finish (s := afterInput s (lenOperand s)) hsize hfits
  exact ⟨_, execPkcs7Pad_of_fits hlen, restUnchanged_finish (consumed_afterInput s _) _, houtLen.trans hout, houtLen, hrest⟩

/-! ## PKCS7_UNPAD -/

theorem exec_pkcs7Unpad (s : State) : exec .pkcs7Unpad s = execPkcs7Unpad s := rfl

theorem execPkcs7Unpad_of_not_blocklen {s : State} (hlen : ¬blocklen s (lenOperand s) = true) :
    execPkcs7Unpad s = .next (raiseError .lengthError s) := by
  rw [execPkcs7Unpad, Bool.eq_false_iff.mpr hlen]
  rfl

theorem execPkcs7Unpad_of_invalidPadding {s : State} (hlen : blocklen s (lenOperand s) = true)
    (hpad : unpad s.strictPad (inputBytes s (lenOperand s)) = none) :
    execPkcs7Unpad s = .next (raiseError .invalidPadding (afterInput s (lenOperand s))) := by
  rw [execPkcs7Unpad, hlen, hpad]
  rfl

theorem execPkcs7Unpad_of_validPadding {s : State} {r : List Byte} (hlen : blocklen s (lenOperand s) = true)
    (hpad : unpad s.strictPad (inputBytes s (lenOperand s)) = some r) :
    execPkcs7Unpad s = .next (finish r (afterInput s (lenOperand s))) := by
  rw [execPkcs7Unpad, hlen, hpad]
  rfl

/-- Settles O30: the output is no longer than the input, which the length check has bounded by BUF_SIZE. -/
theorem pkcs7UnpadOutcome : Obligations.Pkcs7UnpadOutcome := by
  intro s hsize
  simp only [exec_pkcs7Unpad]
  refine ⟨fun hlen => ?_, fun hmin hwhole hmax => ?_⟩
  · exact execPkcs7Unpad_of_not_blocklen (mt (blocklen_iff s _).mp hlen)
  · have hlen := (blocklen_iff s (lenOperand s)).mpr ⟨hmin, hwhole, hmax⟩
    refine ⟨fun hpad => ?invalid, fun r hpad => ?valid⟩
    case invalid =>
      exact ⟨_, execPkcs7Unpad_of_invalidPadding hlen hpad, completedWithError_raiseError _ _,
        restUnchanged_raiseError (consumed_afterInput s _) _⟩
    case valid =>
      have hfits : r.length ≤ s.bufSize := (unpad_length hpad).trans ((inputBytes_length s _).trans_le hmax)
      exact ⟨_, execPkcs7Unpad_of_validPadding hlen hpad, restUnchanged_finish (consumed_afterInput s _) _,
        completedWith_finish (s := afterInput s (lenOperand s)) hsize hfits⟩

end Sys2Proof.Machine
end

section
/-! The envelope's parts, and which envelopes open (43_envelope.md R190 to R194, R197). -/

namespace Sys2Proof.Machine

/-! ## The parts of an envelope that ENCODE builds -/

/-- The tag is the last 32 bytes, after the IV and the ciphertext. -/
theorem envelope_length_sub_tag (ck : Block) (ik : List Byte) (iv : Block) (m : List Byte) :
    (envelope ck ik iv m).length - 32 = (iv.bytes ++ envCiphertext ck iv m).length := by
  rw [envelope_length, List.length_append, Block.bytes_length, envCiphertext_length]
  omega

theorem signedRegion_envelope (ck : Block) (ik : List Byte) (iv : Block) (m : List Byte) :
    signedRegion (envelope ck ik iv m) = iv.bytes ++ envCiphertext ck iv m := by
  rw [signedRegion, envelope_length_sub_tag, envelope, List.take_left]

theorem envelopeTag_envelope (ck : Block) (ik : List Byte) (iv : Block) (m : List Byte) :
    envelopeTag (envelope ck ik iv m) = hmac ik (iv.bytes ++ envCiphertext ck iv m) := by
  rw [envelopeTag, envelope_length_sub_tag, envelope, List.drop_left]

theorem blocksBytes_blocksOf_pad (m : List Byte) : blocksBytes (blocksOf (pad m)) = pad m :=
  blocksBytes_blocksOf (by rw [pad_length_eq_blocks, Nat.mul_mod_right])

/-- CBC decryption takes off CBC encryption, so what is left of an envelope is the padded plaintext. -/
theorem envPadded_envelope (ck : Block) (ik : List Byte) (iv : Block) (m : List Byte) :
    envPadded ck (envelope ck ik iv m) = pad m := by
  rw [envPadded, signedRegion_envelope, List.take_left' iv.bytes_length, List.drop_left' iv.bytes_length, blockOf_bytes,
    envCiphertext, blocksOf_blocksBytes, cbcD_cbcE, blocksBytes_blocksOf_pad]

/-- R192's slices of an envelope that has room for the IV and the tag: the IV lies inside the signed region. -/
theorem envPadded_eq_slices {e : List Byte} (h : 48 ≤ e.length) (ck : Block) :
    envPadded ck e =
      blocksBytes (cbcD ck (blockOf (e.take 16)) (blocksOf ((e.take (e.length - 32)).drop 16))) := by
  have hiv : (signedRegion e).take 16 = e.take 16 := by
    rw [signedRegion, List.take_take, Nat.min_eq_left (by omega)]
  rw [envPadded, hiv, signedRegion]

/-! ## Opening an envelope -/

/-- The tag comparison decides IntegrityFailure, and the cipher key has no part in it (R194). -/
theorem openEnvelope_integrityFailure_iff (ck : Block) (ik : List Byte) (strict : Bool) (e : List Byte) :
    openEnvelope ck ik strict e = .error .integrityFailure ↔ ctEq (hmac ik (signedRegion e)) (envelopeTag e) = false := by
  rw [openEnvelope]
  cases ctEq (hmac ik (signedRegion e)) (envelopeTag e) with
  | false => simp
  | true => cases unpad strict (envPadded ck e) <;> simp

theorem ctEq_tag_of_eq {ik e : List Byte} (h : hmac ik (signedRegion e) = envelopeTag e) :
    ctEq (hmac ik (signedRegion e)) (envelopeTag e) = true :=
  (ctEq_iff (congrArg List.length h)).mpr h

/-- Both tags of an envelope that has room for one have 32 bytes. -/
theorem openEnvelope_of_wrongTag {ik e : List Byte} (hlen : 32 ≤ e.length)
    (h : hmac ik (signedRegion e) ≠ envelopeTag e) (ck : Block) (strict : Bool) :
    openEnvelope ck ik strict e = .error .integrityFailure := by
  have htags : (hmac ik (signedRegion e)).length = (envelopeTag e).length := by
    rw [hmac_length, envelopeTag, List.length_drop]
    omega
  exact (openEnvelope_integrityFailure_iff ck ik strict e).mpr (Bool.eq_false_iff.mpr (mt (ctEq_iff htags).mp h))

theorem openEnvelope_of_invalidPadding {ck : Block} {ik e : List Byte} {strict : Bool}
    (htag : hmac ik (signedRegion e) = envelopeTag e) (hpad : unpad strict (envPadded ck e) = none) :
    openEnvelope ck ik strict e = .error .invalidPadding := by
  rw [openEnvelope, ctEq_tag_of_eq htag, hpad]
  rfl

theorem openEnvelope_of_validPadding {ck : Block} {ik e r : List Byte} {strict : Bool}
    (htag : hmac ik (signedRegion e) = envelopeTag e) (hpad : unpad strict (envPadded ck e) = some r) :
    openEnvelope ck ik strict e = .ok r := by
  rw [openEnvelope, ctEq_tag_of_eq htag, hpad]
  rfl

/-- An envelope opens under the keys it was made with, whatever the setting of STRICT_PAD (R201). -/
theorem openEnvelope_envelope (ck : Block) (ik : List Byte) (iv : Block) (m : List Byte) (strict : Bool) :
    openEnvelope ck ik strict (envelope ck ik iv m) = .ok m :=
  openEnvelope_of_validPadding (by rw [signedRegion_envelope, envelopeTag_envelope])
    (by rw [envPadded_envelope, unpad_pad])

/-- Under an integrity key that gives the signed region another HMAC no cipher key opens it (R202). -/
theorem openEnvelope_envelope_of_wrongKey {ck : Block} {ik ik' : List Byte} {iv : Block} {m : List Byte}
    (h : hmac ik' (iv.bytes ++ envCiphertext ck iv m) ≠ hmac ik (iv.bytes ++ envCiphertext ck iv m))
    (ck' : Block) (strict : Bool) :
    openEnvelope ck' ik' strict (envelope ck ik iv m) = .error .integrityFailure := by
  refine openEnvelope_of_wrongTag ?_ ?_ ck' strict
  · rw [envelope_length]
    omega
  · rwa [signedRegion_envelope, envelopeTag_envelope]

end Sys2Proof.Machine
end

section
/-! The outcomes of ENCODE (43_envelope.md R191, R198; 60_exceptions.md R230). -/

namespace Sys2Proof.Machine

/-! ## The checks -/

theorem keysLoaded_of_notWritten {s : State} (h : s.ckWritten ≠ 0xF ∨ s.ikWritten ≠ 0xFF) : keysLoaded s = false :=
  Bool.eq_false_iff.mpr fun hloaded =>
    have ⟨hck, hik⟩ := (keysLoaded_iff s).mp hloaded
    h.elim (· hck) (· hik)

theorem exec_envEncode (s : State) : exec .envEncode s = execEncode s := rfl

theorem execEncode_of_tooLong {s : State} (hlen : encMax s < lenOperand s) :
    execEncode s = .next (raiseError .lengthError s) := if_pos hlen

theorem execEncode_of_keysNotLoaded {s : State} (hlen : lenOperand s ≤ encMax s) (hkeys : keysLoaded s = false) :
    execEncode s = .next (raiseError .keyNotLoaded s) := by
  rw [execEncode, if_neg hlen.not_gt, hkeys]
  rfl

theorem execEncode_of_drawFailed {s : State} (hlen : lenOperand s ≤ encMax s) (hkeys : keysLoaded s = true)
    (hdraw : rngNext s = .fail) : execEncode s = .next (raiseError .randomSourceFailure (rngDrawn s)) := by
  rw [execEncode, if_neg hlen.not_gt, hkeys, hdraw]
  rfl

theorem execEncode_of_drawn {s : State} {d : BitVec 128} (hlen : lenOperand s ≤ encMax s) (hkeys : keysLoaded s = true)
    (hdraw : rngNext s = .ok d) :
    execEncode s = .next (finish
      (envelope (ckOperand s) (ikOperand s) (blockOfDraw d) (inputBytes s (lenOperand s)))
      (afterInput (rngDrawn s) (lenOperand s))) := by
  rw [execEncode, if_neg hlen.not_gt, hkeys, hdraw]
  rfl

/-- Settles O32: the three checks in their order. -/
theorem encodeCheckOrder : Obligations.EncodeCheckOrder := by
  intro s
  simp only [exec_envEncode]
  refine ⟨execEncode_of_tooLong, fun hlen hkeys => execEncode_of_keysNotLoaded hlen (keysLoaded_of_notWritten hkeys),
    fun hlen hck hik hdraw => ?_⟩
  exact ⟨_, execEncode_of_drawFailed hlen ((keysLoaded_iff s).mpr ⟨hck, hik⟩) hdraw, completedWithError_raiseError _ _,
    restUnchanged_raiseError (consumed_rngDrawn s) _, rfl⟩

/-! ## The largest plaintext -/

/-- A legal BUF_SIZE is whole blocks, so the envelope of l bytes fits up to the last byte of the block that ENC_MAX ends. -/
theorem envelope_fits_iff {n : Nat} (h : Config.LegalBufSize n) (l : Nat) : 64 + 16 * (l / 16) ≤ n ↔ l ≤ n - 49 := by
  omega

/-- Past the length check ENCODE reports no LengthError. -/
theorem execEncode_err_ne_lengthError {s t : State} (hlen : lenOperand s ≤ encMax s) (h : execEncode s = .next t) :
    t.err ≠ .lengthError := by
  cases hkeys : keysLoaded s with
  | false => cases (execEncode_of_keysNotLoaded hlen hkeys).symm.trans h; simp
  | true =>
    cases hdraw : rngNext s with
    | fail => cases (execEncode_of_drawFailed hlen hkeys hdraw).symm.trans h; simp
    | ok d => cases (execEncode_of_drawn hlen hkeys hdraw).symm.trans h; simp

/-- Settles O33: the length check reports every LengthError of ENCODE. -/
theorem encMaxIsTheLargestThatFits : Obligations.EncMaxIsTheLargestThatFits := by
  intro s hsize
  refine ⟨rfl, fun h => by rw [encMax, h], envelope_fits_iff hsize, fun t ht => ⟨fun herr => ?_, fun hlen => ?_⟩⟩
  · by_contra hlen
    exact execEncode_err_ne_lengthError (Nat.le_of_not_lt hlen) ht herr
  · cases (execEncode_of_tooLong hlen).symm.trans ht
    rfl

/-! ## The output -/

/-- ENCODE past its checks and its draw: the envelope of the input, which fits OUT_BUF. -/
theorem execEncode_output {s : State} {d : BitVec 128} (hsize : Config.LegalBufSize s.bufSize)
    (hlen : lenOperand s ≤ encMax s) (hkeys : keysLoaded s = true) (hdraw : rngNext s = .ok d) :
    ∃ t, execEncode s = .next t ∧ RestUnchanged s t ∧
      CompletedWith t (envelope (ckOperand s) (ikOperand s) (blockOfDraw d) (inputBytes s (lenOperand s))) ∧
      t.rngCount = s.rngCount + 1 ∧ t.rngAnswers = s.rngAnswers.drop 1 := by
  have hfits : (envelope (ckOperand s) (ikOperand s) (blockOfDraw d) (inputBytes s (lenOperand s))).length ≤ s.bufSize := by
    rw [envelope_length, inputBytes_length]
    exact (envelope_fits_iff hsize _).mpr hlen
  exact ⟨_, execEncode_of_drawn hlen hkeys hdraw, restUnchanged_finish (consumed_afterInput_rngDrawn s _) _,
    completedWith_finish (s := afterInput (rngDrawn s) (lenOperand s)) hsize hfits, rfl, rfl⟩

/-- Settles O31: the statement writes the model's envelope out in its three parts. -/
theorem encodeOutput : Obligations.EncodeOutput := by
  intro s d hsize hlen hck hik hdraw
  obtain ⟨t, hexec, hrest, hdone, hcount, hanswers⟩ :=
    execEncode_output hsize hlen ((keysLoaded_iff s).mpr ⟨hck, hik⟩) hdraw
  have houtLen : t.outLen.toNat = 64 + 16 * (lenOperand s / 16) := by
    rw [hdone.1, envelope_length, inputBytes_length]
  exact ⟨t, _, _, rfl, rfl, hexec, hrest, hdone, houtLen, hcount, hanswers⟩

end Sys2Proof.Machine
end

section
/-! The outcomes of DECODE, and DECODE of what ENCODE wrote (43_envelope.md R192 to R194, R201, R202; 60_exceptions.md R230). -/

namespace Sys2Proof.Machine

/-! ## The checks -/

/-- The checks of DECODE that come before the envelope's bytes are read (R192 step 1, R193; 60_exceptions.md R222). -/
structure DecodeReady (s : State) : Prop where
  envelopeLength : envlen (lenOperand s) = true
  inBuffer : lenOperand s ≤ s.bufSize
  keys : keysLoaded s = true

theorem DecodeReady.le_lenOperand {s : State} (h : DecodeReady s) : 64 ≤ lenOperand s :=
  ((envlen_iff _).mp h.envelopeLength).1

theorem exec_envDecode (s : State) : exec .envDecode s = execDecode s := rfl

theorem execDecode_of_not_envlen {s : State} (h : envlen (lenOperand s) = false) :
    execDecode s = .next (raiseError .malformedEnvelope s) := by
  rw [execDecode, h]
  rfl

theorem execDecode_of_tooLong {s : State} (henv : envlen (lenOperand s) = true) (hlen : s.bufSize < lenOperand s) :
    execDecode s = .next (raiseError .lengthError s) := by
  rw [execDecode, henv, if_pos hlen]
  rfl

theorem execDecode_of_keysNotLoaded {s : State} (henv : envlen (lenOperand s) = true) (hlen : lenOperand s ≤ s.bufSize)
    (hkeys : keysLoaded s = false) : execDecode s = .next (raiseError .keyNotLoaded s) := by
  rw [execDecode, henv, if_neg hlen.not_gt, hkeys]
  rfl

theorem execDecode_of_rejected {s : State} (h : DecodeReady s) {c : ErrCode}
    (hopen : openEnvelope (ckOperand s) (ikOperand s) s.strictPad (inputBytes s (lenOperand s)) = .error c) :
    execDecode s = .next (raiseError c (afterInput s (lenOperand s))) := by
  rw [execDecode, h.envelopeLength, if_neg h.inBuffer.not_gt, h.keys, hopen]
  rfl

theorem execDecode_of_opened {s : State} (h : DecodeReady s) {r : List Byte}
    (hopen : openEnvelope (ckOperand s) (ikOperand s) s.strictPad (inputBytes s (lenOperand s)) = .ok r) :
    execDecode s = .next (finish r (afterInput s (lenOperand s))) := by
  rw [execDecode, h.envelopeLength, if_neg h.inBuffer.not_gt, h.keys, hopen]
  rfl

/-! ## The outcomes -/

theorem execDecode_rejects {s : State} (h : DecodeReady s) {c : ErrCode}
    (hopen : openEnvelope (ckOperand s) (ikOperand s) s.strictPad (inputBytes s (lenOperand s)) = .error c) :
    ∃ t, execDecode s = .next t ∧ CompletedWithError t c ∧ RestUnchanged s t :=
  ⟨_, execDecode_of_rejected h hopen, completedWithError_raiseError _ _, restUnchanged_raiseError (consumed_afterInput s _) _⟩

/-- The plaintext is no longer than the envelope, which the length check has bounded by BUF_SIZE. -/
theorem execDecode_opens {s : State} (hsize : Config.LegalBufSize s.bufSize) (h : DecodeReady s) {r : List Byte}
    (hopen : openEnvelope (ckOperand s) (ikOperand s) s.strictPad (inputBytes s (lenOperand s)) = .ok r) :
    ∃ t, execDecode s = .next t ∧ RestUnchanged s t ∧ CompletedWith t r := by
  have hfits : r.length ≤ s.bufSize := (openEnvelope_length hopen).trans ((inputBytes_length s _).trans_le h.inBuffer)
  exact ⟨_, execDecode_of_opened h hopen, restUnchanged_finish (consumed_afterInput s _) _,
    completedWith_finish (s := afterInput s (lenOperand s)) hsize hfits⟩

/-- The slices of the statements are the model's signed region, tag and padded plaintext of the bytes read. -/
theorem inputBytes_slices {s : State} (h : DecodeReady s) :
    (inputBytes s (lenOperand s)).take (lenOperand s - 32) = signedRegion (inputBytes s (lenOperand s)) ∧
    (inputBytes s (lenOperand s)).drop (lenOperand s - 32) = envelopeTag (inputBytes s (lenOperand s)) ∧
    blocksBytes (cbcD (ckOperand s) (blockOf ((inputBytes s (lenOperand s)).take 16))
      (blocksOf ((signedRegion (inputBytes s (lenOperand s))).drop 16))) =
        envPadded (ckOperand s) (inputBytes s (lenOperand s)) := by
  have hlong := h.le_lenOperand
  refine ⟨by rw [signedRegion, inputBytes_length], by rw [envelopeTag, inputBytes_length], ?_⟩
  rw [envPadded_eq_slices (by rw [inputBytes_length]; omega), signedRegion]

/-- Settles O34: the tag and then the padding are what an envelope opens on. -/
theorem decodeOutput : Obligations.DecodeOutput := by
  rintro s _ r hsize hmin hwhole hmax hck hik rfl htag hpad
  have hready : DecodeReady s := ⟨(envlen_iff _).mpr ⟨hmin, hwhole⟩, hmax, (keysLoaded_iff s).mpr ⟨hck, hik⟩⟩
  obtain ⟨hregion, htagBytes, hpadded⟩ := inputBytes_slices hready
  rw [hregion, htagBytes] at htag
  rw [hregion, hpadded] at hpad
  exact execDecode_opens hsize hready (openEnvelope_of_validPadding htag hpad)

/-- Settles O35: the checks before the read in their order, then the two ways an envelope is turned away. -/
theorem decodeCheckOrder : Obligations.DecodeCheckOrder := by
  rintro s _ rfl
  simp only [exec_envDecode]
  refine ⟨fun hbad => execDecode_of_not_envlen (Bool.eq_false_iff.mpr (mt (envlen_iff _).mp hbad)), fun hmin hwhole => ?_⟩
  have henv := (envlen_iff _).mpr ⟨hmin, hwhole⟩
  refine ⟨execDecode_of_tooLong henv, fun hmax =>
    ⟨fun hkeys => execDecode_of_keysNotLoaded henv hmax (keysLoaded_of_notWritten hkeys), fun hck hik => ?_⟩⟩
  have hready : DecodeReady s := ⟨henv, hmax, (keysLoaded_iff s).mpr ⟨hck, hik⟩⟩
  obtain ⟨hregion, htagBytes, hpadded⟩ := inputBytes_slices hready
  rw [hregion, htagBytes, hpadded]
  refine ⟨fun htag => ?_, fun htag hpad => execDecode_rejects hready (openEnvelope_of_invalidPadding htag hpad)⟩
  exact execDecode_rejects hready (openEnvelope_of_wrongTag (by rw [inputBytes_length]; omega) htag _ _)

/-! ## Verify before decrypt -/

/-- DECODE reports IntegrityFailure only past its first three checks, and only where the tags differ. -/
theorem execDecode_integrityFailure {s t : State} (h : execDecode s = .next t) (herr : t.err = .integrityFailure) :
    DecodeReady s ∧
      ctEq (hmac (ikOperand s) (signedRegion (inputBytes s (lenOperand s))))
        (envelopeTag (inputBytes s (lenOperand s))) = false ∧
      t = raiseError .integrityFailure (afterInput s (lenOperand s)) := by
  cases henv : envlen (lenOperand s) with
  | false => cases (execDecode_of_not_envlen henv).symm.trans h; cases herr
  | true =>
    rcases Nat.lt_or_ge s.bufSize (lenOperand s) with hlen | hlen
    · cases (execDecode_of_tooLong henv hlen).symm.trans h; cases herr
    · cases hkeys : keysLoaded s with
      | false => cases (execDecode_of_keysNotLoaded henv hlen hkeys).symm.trans h; cases herr
      | true =>
        have hready : DecodeReady s := ⟨henv, hlen, hkeys⟩
        cases hopen : openEnvelope (ckOperand s) (ikOperand s) s.strictPad (inputBytes s (lenOperand s)) with
        | ok r => cases (execDecode_of_opened hready hopen).symm.trans h; cases herr
        | error c =>
          cases (execDecode_of_rejected hready hopen).symm.trans h
          obtain rfl : c = .integrityFailure := herr
          exact ⟨hready, (openEnvelope_integrityFailure_iff ..).mp hopen, rfl⟩

/-- Settles O36: neither the checks before the read nor the tag comparison look at the cipher key's value. -/
theorem integrityFailureHidesDecryption : Obligations.IntegrityFailureHidesDecryption := by
  intro s t ck hexec herr
  obtain ⟨⟨henv, hlen, hkeys⟩, htag, rfl⟩ := execDecode_integrityFailure hexec herr
  have hready : DecodeReady { s with ckey := ck } := ⟨henv, hlen, hkeys⟩
  exact ⟨completedWithError_raiseError _ _,
    execDecode_of_rejected hready ((openEnvelope_integrityFailure_iff (blockOfWords ck) _ s.strictPad _).mpr htag)⟩

/-! ## DECODE of what ENCODE wrote -/

theorem inputBytes_of_holdsInput {s : State} {b : List Byte} (h : HoldsInput s b) : inputBytes s (lenOperand s) = b := by
  obtain ⟨hlen, hbytes⟩ := h
  rw [hlen]
  exact (inputBytes_specified hbytes).1

/-- A state whose LEN and IN_BUF were copied from OUT_LEN and OUT_BUF of a completion holds the completion's output. -/
theorem holdsInput_of_copied {t u : State} {out : List Byte} (ht : CompletedWith t out) (hfits : out.length ≤ t.bufSize)
    (hlen : u.len = t.outLen) (hbytes : ∀ i, i < t.outLen.toNat → u.inBuf.get i = t.outBuf.get i) : HoldsInput u out := by
  obtain ⟨houtLen, houtBuf, -⟩ := ht
  refine ⟨by rw [lenOperand, hlen, houtLen], fun i hi => ?_⟩
  rw [hbytes i (houtLen ▸ hi), houtBuf i (by omega)]

/-- An envelope has a length DECODE takes. -/
theorem envlen_envelope (ck : Block) (ik : List Byte) (iv : Block) (m : List Byte) :
    envlen (envelope ck ik iv m).length = true := by
  rw [envelope_length, envlen_iff]
  omega

/-- What ENCODE wrote, copied into the input of a state with both keys loaded, passes DECODE's first checks and is the
envelope of the plaintext. -/
theorem execEncode_copied {s : State} {m : List Byte} {d : BitVec 128} (hsize : Config.LegalBufSize s.bufSize)
    (hm : HoldsInput s m) (hlen : m.length ≤ s.bufSize - 49) (hck : s.ckWritten = 0xF) (hik : s.ikWritten = 0xFF)
    (hdraw : rngNext s = .ok d) :
    ∃ t, execEncode s = .next t ∧ t.err = .ok ∧
      ∀ u : State, u.bufSize = s.bufSize → u.ckWritten = 0xF → u.ikWritten = 0xFF →
        u.len = t.outLen → (∀ i, i < t.outLen.toNat → u.inBuf.get i = t.outBuf.get i) →
        DecodeReady u ∧
          inputBytes u (lenOperand u) = envelope (ckOperand s) (ikOperand s) (blockOfDraw d) m := by
  have hencode := execEncode_of_drawn (hm.1.trans_le hlen) ((keysLoaded_iff s).mpr ⟨hck, hik⟩) hdraw
  rw [inputBytes_of_holdsInput hm] at hencode
  have hfits : (envelope (ckOperand s) (ikOperand s) (blockOfDraw d) m).length ≤ s.bufSize := by
    rw [envelope_length]
    exact (envelope_fits_iff hsize _).mpr hlen
  have hdone := completedWith_finish (s := afterInput (rngDrawn s) (lenOperand s)) hsize hfits
  refine ⟨_, hencode, rfl, fun u husize huck huik hulen hubytes => ?_⟩
  have hu := holdsInput_of_copied hdone hfits hulen hubytes
  refine ⟨⟨?_, ?_, (keysLoaded_iff u).mpr ⟨huck, huik⟩⟩, inputBytes_of_holdsInput hu⟩
  · rw [hu.1]
    exact envlen_envelope ..
  · rw [hu.1, husize]
    exact hfits

/-- Settles O37: the envelope opens under the keys it was made with. -/
theorem decodeOfEncodeRoundTrip : Obligations.DecodeOfEncodeRoundTrip := by
  intro s m d hsize hm hlen hck hik hdraw
  obtain ⟨t, hexec, herr, hcopied⟩ := execEncode_copied hsize hm hlen hck hik hdraw
  refine ⟨t, hexec, herr, fun u husize huckey huikey huck huik hulen hubytes => ?_⟩
  obtain ⟨hready, hinput⟩ := hcopied u husize huck huik hulen hubytes
  have hckOperand : ckOperand u = ckOperand s := congrArg blockOfWords huckey
  have hikOperand : ikOperand u = ikOperand s := by rw [ikOperand, huikey, ikOperand]
  have hopen : openEnvelope (ckOperand u) (ikOperand u) u.strictPad (inputBytes u (lenOperand u)) = .ok m := by
    rw [hinput, hckOperand, hikOperand, openEnvelope_envelope]
  obtain ⟨w, hdecode, -, hw⟩ := execDecode_opens (husize ▸ hsize) hready hopen
  exact ⟨w, hdecode, hw⟩

/-- Settles O38: DECODE recomputes the tag under its own integrity key. -/
theorem wrongIntegrityKeyIsRejected : Obligations.WrongIntegrityKeyIsRejected := by
  intro s m d hsize hm hlen hck hik hdraw
  obtain ⟨t, hexec, herr, hcopied⟩ := execEncode_copied hsize hm hlen hck hik hdraw
  refine ⟨t, hexec, herr, fun u husize huck huik hulen hubytes hkey => ?_⟩
  obtain ⟨hready, hinput⟩ := hcopied u husize huck huik hulen hubytes
  have hopen : openEnvelope (ckOperand u) (ikOperand u) u.strictPad (inputBytes u (lenOperand u)) =
      .error .integrityFailure := by
    rw [hinput]
    exact openEnvelope_envelope_of_wrongKey hkey _ _
  obtain ⟨w, hdecode, hw, -⟩ := execDecode_rejects hready hopen
  exact ⟨w, hdecode, hw⟩

end Sys2Proof.Machine
end

section
/-! How a command completes: what `finish` and `raise` write, and the frame of all nine commands (60_exceptions.md R224 to R227). -/

namespace Sys2Proof.Machine

/-! ## The two completions -/

theorem finish_outLen_le (out : List Byte) (s : State) : (finish out s).outLen.toNat ≤ out.length := by
  rw [finish_outLen, BitVec.toNat_ofNat]
  exact Nat.mod_le _ _

/-- Settles O11: the buffer reads as `byteAt out` does, zero past the output's end. -/
theorem successCompletionWritesOutput : Obligations.SuccessCompletionWritesOutput := by
  intro out s hsize hout
  obtain ⟨houtLen, houtBuf, herr, hseq, hdone⟩ := completedWith_finish hsize hout
  refine ⟨fun i hi => ?_, fun i hle hi => ?_, houtLen, herr, hseq, hdone, restUnchanged_finish (Consumed.refl s) out⟩
  · rw [houtBuf i (hi.trans_le hout), byteAt_of_lt hi, List.getElem?_eq_getElem hi]
  · rw [houtBuf i hi, byteAt_of_ge hle]

/-- Settles O12: the error completion's own laws. -/
theorem errorCompletionZeroesOutput : Obligations.ErrorCompletionZeroesOutput := by
  intro e s
  obtain ⟨houtLen, houtBuf, herr, hseq, hdone⟩ := completedWithError_raiseError e s
  exact ⟨houtBuf, houtLen, herr, hseq, hdone, restUnchanged_raiseError (Consumed.refl s) e⟩

/-! ## All nine commands -/

/-- Settles O13: a command ends in one of the two completions, on a state its reads and its draw lead to. -/
theorem everyCommandCompletesWithinItsFrame : Obligations.EveryCommandCompletesWithinItsFrame := by
  intro i s
  obtain ⟨u, hu, ⟨e, -, hexec⟩ | ⟨out, hout, hexec⟩⟩ := exec_completes i s
  · exact ⟨_, hexec, restUnchanged_raiseError hu e, rfl, rfl, fun _ => completedWithError_raiseError e u, fun _ => Nat.zero_le _⟩
  · exact ⟨_, hexec, restUnchanged_finish hu out, rfl, rfl, fun herr => absurd rfl herr,
      fun hsize => (finish_outLen_le out u).trans (hout hsize)⟩

/-- A legal command reports no IllegalCommand (R221). -/
theorem exec_err_ne_illegalCommand {i : Instr} {s t : State} (h : exec i s = .next t) : t.err ≠ .illegalCommand := by
  obtain ⟨u, -, ⟨e, he, hexec⟩ | ⟨out, -, hexec⟩⟩ := exec_completes i s <;> cases hexec.symm.trans h
  · exact he.2
  · rw [finish_err]
    decide

end Sys2Proof.Machine
end

section
/-! The step in `busy`: which command the sequencer's turn runs, the completion of an illegal one, and that every step answers a
next state (60_exceptions.md R221, R224, R236; 93_implementation_defined.md section 2). -/

namespace Sys2Proof.Machine

/-! ## The sequencer's turn -/

theorem sequencerStep_of_decoded {s : State} {i : Instr} (hbusy : s.seq = .busy) (hcmd : decode s.cmd = .ok i) :
    sequencerStep s = exec i s := by
  simp only [sequencerStep, hbusy, hcmd]

theorem sequencerStep_of_illegal {s : State} {why : IllegalCmd} (hbusy : s.seq = .busy) (hcmd : decode s.cmd = .error why) :
    sequencerStep s = .next (raiseError .illegalCommand s) := by
  simp only [sequencerStep, hbusy, hcmd]
  rfl

theorem step_of_noInputs {s : State} (h : s.inputs = []) : step s = sequencerStep s := by
  simp only [step, h]

theorem step_of_sequencer {s : State} {rest : List Input} (h : s.inputs = .sequencer :: rest) :
    step s = sequencerStep { s with inputs := rest } := by
  simp only [step, h]

/-- Settles O4: taking the turn off the event list moves neither the sequencer nor CMD. -/
theorem stepRunsTheDecodedCommand : Obligations.StepRunsTheDecodedCommand := by
  intro s i hbusy hcmd
  refine ⟨fun hnone => ?_, fun rest hturn => ?_⟩
  · rw [step_of_noInputs hnone, sequencerStep_of_decoded hbusy hcmd]
  · rw [step_of_sequencer hturn]
    exact sequencerStep_of_decoded (s := { s with inputs := rest }) hbusy hcmd

/-- Settles O5: an illegal command is an error completion on the state itself, and a legal one has other codes. -/
theorem illegalCommandExactly : Obligations.IllegalCommandExactly := by
  refine ⟨fun s why hbusy hcmd => ⟨?_, step_of_noInputs, fun rest => step_of_sequencer⟩, fun i s t => exec_err_ne_illegalCommand⟩
  exact ⟨_, sequencerStep_of_illegal hbusy hcmd, completedWithError_raiseError _ s,
    restUnchanged_raiseError (Consumed.refl s) _, rfl, rfl, rfl⟩

/-! ## Every step -/

theorem CompletesWith.answersNext {P : ErrCode → Prop} {s : State} {r : Result} (h : CompletesWith P s r) :
    ∃ t, r = .next t := by
  obtain ⟨u, -, ⟨e, -, hr⟩ | ⟨out, -, hr⟩⟩ := h
  · exact ⟨_, hr⟩
  · exact ⟨_, hr⟩

theorem sequencerStep_answersNext (s : State) : ∃ t, sequencerStep s = .next t := by
  rcases sequencerStep_cases s with ⟨-, hidle⟩ | ⟨-, hcompletes⟩
  · exact ⟨s, hidle⟩
  · exact hcompletes.answersNext

/-- Settles O6: a turn completes or rests, and accesses and resets are total. -/
theorem stepAlwaysAnswersNext : Obligations.StepAlwaysAnswersNext := by
  intro s
  rcases step_cases s with ⟨-, hstep⟩ | ⟨rest, -, hstep⟩ | ⟨a, rest, -, hstep⟩ | ⟨rest, -, hstep⟩
  · rw [hstep]
    exact sequencerStep_answersNext s
  · rw [hstep]
    exact sequencerStep_answersNext _
  · exact ⟨_, hstep⟩
  · exact ⟨_, hstep⟩

end Sys2Proof.Machine
end

section
/-! Draws from the random source (60_exceptions.md R240; 43_envelope.md R191). -/

namespace Sys2Proof.Machine

/-! ## Commands that take no draw -/

/-- Between two states no draw was taken. -/
def SameDraws (s t : State) : Prop := t.rngCount = s.rngCount ∧ t.rngAnswers = s.rngAnswers

theorem SameDraws.refl (s : State) : SameDraws s s := ⟨rfl, rfl⟩

theorem sameDraws_afterInput (s : State) (n : Nat) : SameDraws s (afterInput s n) := ⟨rfl, rfl⟩

/-- A command's answer from s that took no draw. -/
def TakesNoDraw (s : State) (r : Result) : Prop := ∀ t, r = .next t → SameDraws s t

theorem takesNoDraw_fail {s u : State} (h : SameDraws s u) (e : ErrCode) : TakesNoDraw s (fail e u) := by
  rintro _ ⟨⟩
  exact h

theorem takesNoDraw_succeed {s u : State} (h : SameDraws s u) (out : List Byte) : TakesNoDraw s (succeed out u) := by
  rintro _ ⟨⟩
  exact h

/-- A check whose error is reported before any draw. -/
theorem takesNoDraw_check {s : State} {c : Prop} [Decidable c] {e : ErrCode} {r : Result} (h : TakesNoDraw s r) :
    TakesNoDraw s (if c then fail e s else r) := by
  split
  · exact takesNoDraw_fail (.refl s) e
  · exact h

theorem rawCipher_takesNoDraw (mode : List Block → List Block) (s : State) : TakesNoDraw s (rawCipher mode s) :=
  takesNoDraw_check (takesNoDraw_check (takesNoDraw_succeed (sameDraws_afterInput s _) _))

theorem execHmacSha256_takesNoDraw (s : State) : TakesNoDraw s (execHmacSha256 s) :=
  takesNoDraw_check (takesNoDraw_check (takesNoDraw_succeed (sameDraws_afterInput s _) _))

theorem execPkcs7Pad_takesNoDraw (s : State) : TakesNoDraw s (execPkcs7Pad s) :=
  takesNoDraw_check (takesNoDraw_succeed (sameDraws_afterInput s _) _)

theorem execPkcs7Unpad_takesNoDraw (s : State) : TakesNoDraw s (execPkcs7Unpad s) := by
  refine takesNoDraw_check ?_
  cases unpad s.strictPad (inputBytes s (lenOperand s)) with
  | none => exact takesNoDraw_fail (sameDraws_afterInput s _) _
  | some r => exact takesNoDraw_succeed (sameDraws_afterInput s _) r

theorem execDecode_takesNoDraw (s : State) : TakesNoDraw s (execDecode s) := by
  refine takesNoDraw_check (takesNoDraw_check (takesNoDraw_check ?_))
  cases openEnvelope (ckOperand s) (ikOperand s) s.strictPad (inputBytes s (lenOperand s)) with
  | error e => exact takesNoDraw_fail (sameDraws_afterInput s _) e
  | ok r => exact takesNoDraw_succeed (sameDraws_afterInput s _) r

theorem exec_takesNoDraw {i : Instr} (hi : i ≠ .envEncode) (s : State) : TakesNoDraw s (exec i s) := by
  cases i with
  | envEncode => exact absurd rfl hi
  | envDecode => exact execDecode_takesNoDraw s
  | aesEcbEnc | aesEcbDec | aesCbcEnc | aesCbcDec => exact rawCipher_takesNoDraw _ s
  | hmacSha256 => exact execHmacSha256_takesNoDraw s
  | pkcs7Pad => exact execPkcs7Pad_takesNoDraw s
  | pkcs7Unpad => exact execPkcs7Unpad_takesNoDraw s

/-! ## ENCODE -/

/-- ENCODE draws once, whatever the answer, where both checks pass, and not at all where one fails. -/
theorem execEncode_draws {s t : State} (h : execEncode s = .next t) :
    SameDraws s t ∨
      (lenOperand s ≤ encMax s ∧ keysLoaded s = true ∧ t.rngCount = s.rngCount + 1 ∧ t.rngAnswers = s.rngAnswers.drop 1) := by
  rcases Nat.lt_or_ge (encMax s) (lenOperand s) with htooLong | hlen
  · cases (execEncode_of_tooLong htooLong).symm.trans h
    exact .inl ⟨rfl, rfl⟩
  cases hkeys : keysLoaded s with
  | false =>
    cases (execEncode_of_keysNotLoaded hlen hkeys).symm.trans h
    exact .inl ⟨rfl, rfl⟩
  | true =>
    cases hdraw : rngNext s with
    | ok d =>
      cases (execEncode_of_drawn hlen hkeys hdraw).symm.trans h
      exact .inr ⟨hlen, rfl, rfl, rfl⟩
    | fail =>
      cases (execEncode_of_drawFailed hlen hkeys hdraw).symm.trans h
      exact .inr ⟨hlen, rfl, rfl, rfl⟩

/-- Settles O16: the eight other commands use the random source nowhere, ENCODE past its checks. -/
theorem onlyEncodeDraws : Obligations.OnlyEncodeDraws := by
  intro i s t hexec
  by_cases hi : i = .envEncode
  · subst hi
    exact (execEncode_draws hexec).imp id fun hdrawn => ⟨rfl, hdrawn⟩
  · exact .inl (exec_takesNoDraw hi s t hexec)

end Sys2Proof.Machine
end

section
/-! The interrupt output (60_exceptions.md R235). -/

namespace Sys2Proof.Machine

/-! ## The output after each operation on its two bits -/

theorem irq_iff (s : State) : irq s = true ↔ s.irqEn = true ∧ s.done = true := Bool.and_eq_true_iff

theorem irq_writeStatus (v : Word) (s : State) : irq (writeStatus v s) = (irq s && !v.getLsbD 1) :=
  (Bool.and_assoc ..).symm

theorem irq_writeCtrl (v : Word) (s : State) : irq (writeCtrl v s) = (v.getLsbD 0 && s.done) := rfl

theorem irq_startCommand (v : Word) (s : State) : irq (startCommand v s) = false := Bool.and_false _

/-- The latched answer is no part of the output. -/
theorem irq_hostAccess_write_register {addr : Offset} {l : Location} (h : registerAt addr.toNat = some l) (v : Word)
    (s : State) : irq (hostAccess (.write addr 32 v) s) = irq (writeLocation l v s) := by
  rw [hostAccess_write_register h]
  rfl

theorem irq_hostAccess_read (addr : Offset) (bits : Nat) (s : State) : irq (hostAccess (.read addr bits) s) = irq s := by
  rw [readsHaveNoSideEffect s addr bits]
  rfl

/-- A completion sets DONE and leaves IRQ_EN. -/
theorem irq_exec {i : Instr} {s t : State} (h : exec i s = .next t) : irq t = s.irqEn := by
  obtain ⟨u, hexec, ⟨hirqEn, -⟩, -, hdone, -⟩ := everyCommandCompletesWithinItsFrame i s
  cases hexec.symm.trans h
  rw [irq, hirqEn, hdone, Bool.and_true]

/-- Settles O55: a completion is the commands' frame, and each of the three writes clears one of the two bits. -/
theorem interruptOutput : Obligations.InterruptOutput := by
  intro s
  refine ⟨irq_iff s, fun i t => irq_exec, ?_, fun hidle v hdisable => ?_, fun hidle v => ?_,
    fun addr bits => irq_hostAccess_read addr bits s⟩
  · rw [irq_hostAccess_write_register (l := .status) rfl, writeLocation, irq_writeStatus]
    exact Bool.and_false _
  · rw [irq_hostAccess_write_register (l := .ctrl) rfl, writeLocation, unlessBusy_idle hidle, irq_writeCtrl, hdisable,
      Bool.false_and]
  · rw [irq_hostAccess_write_register (l := .cmd) rfl, writeLocation, unlessBusy_idle hidle, irq_startCommand]

end Sys2Proof.Machine
end

section
/-! The reset state, read register by register (70_reset_and_hazards.md R260, R261). -/

namespace Sys2Proof.Machine

/-! ## What the reset state holds -/

theorem State.reset_ckey_word (i : Fin 4) : State.reset.ckey[i] = 0 := Vector.getElem_replicate i.isLt

theorem State.reset_ikey_word (i : Fin 8) : State.reset.ikey[i] = 0 := Vector.getElem_replicate i.isLt

theorem State.reset_iv_word (i : Fin 4) : State.reset.iv[i] = 0 := Vector.getElem_replicate i.isLt

/-- No byte is specified after reset (R261). -/
theorem State.reset_buffers_unspecified (a : Nat) : State.reset.inBuf.get a = none ∧ State.reset.outBuf.get a = none :=
  ⟨rfl, rfl⟩

theorem ctrlWord_reset : ctrlWord State.reset = 0 := by decide

theorem statusWord_reset : statusWord State.reset = 0 := by decide

theorem legalBufSize_default : Config.LegalBufSize Config.defaultBufSize := by decide

/-! ## The obligations of the reset state -/

/-- Settles O8: the default BUF_SIZE is legal, both buffers are empty, and no command has run. -/
theorem resetHasTheInvariant : Obligations.ResetHasTheInvariant := by
  have hin : State.reset.InBufWf := ⟨State.reset_inBuf_wf, rfl, rfl⟩
  have hout : State.reset.OutBufWf := ⟨State.reset_outBuf_wf, rfl, .inl ⟨rfl, rfl⟩⟩
  have hnotBusy : State.reset.BusyClear := fun _ => ⟨rfl, rfl, rfl⟩
  have hnoError : State.reset.NoPartialOutput := fun herr => absurd rfl herr
  have hkeys : State.reset.UnwrittenKeysZero := ⟨fun i _ => State.reset_ckey_word i, fun i _ => State.reset_ikey_word i⟩
  exact ⟨legalBufSize_default, hin, hout, Nat.zero_le _, hnotBusy, fun _ => rfl, hnoError, hkeys⟩

/-- Settles O56: every register the reset input leaves is `State.reset`'s, and PARAM reads the BUF_SIZE it keeps. -/
theorem resetInputRestoresEveryRegister : Obligations.ResetInputRestoresEveryRegister := by
  intro s rest hinputs
  refine ⟨_, step_of_reset hinputs, ?_⟩
  have hcontrol : ctrlWord (resetLine { s with inputs := rest }) = 0 := ctrlWord_reset
  have hstatus : statusWord (resetLine { s with inputs := rest }) = 0 := statusWord_reset
  exact ⟨rfl, rfl, rfl, hcontrol, rfl, hstatus, rfl, rfl, State.reset_ckey_word, State.reset_ikey_word, rfl, rfl,
    State.reset_iv_word, State.reset_buffers_unspecified, rfl⟩

end Sys2Proof.Machine
end

section
/-! A run uses its events up one by one and ends idle (60_exceptions.md R224, R243; 70_reset_and_hazards.md R276). -/

namespace Sys2Proof.Machine

/-! ## The sequencer's turn -/

theorem sequencerStep_of_idle {s : State} (h : s.seq = .idle) : sequencerStep s = .next s := by
  simp only [sequencerStep, h]

/-- Whatever command ran, its completion leaves the sequencer idle and the events as they were. -/
theorem sequencerStep_endsIdle {s t : State} (h : sequencerStep s = .next t) : t.seq = .idle ∧ t.inputs = s.inputs := by
  rcases sequencerStep_cases s with ⟨hidle, hrests⟩ | ⟨-, u, hu, ⟨e, -, hr⟩ | ⟨out, -, hr⟩⟩
  · cases hrests.symm.trans h
    exact ⟨hidle, rfl⟩
  · cases hr.symm.trans h
    exact ⟨rfl, by rw [raiseError_inputs, hu]⟩
  · cases hr.symm.trans h
    exact ⟨rfl, by rw [finish_inputs, hu]⟩

/-! ## The events still to come -/

/-- A step takes the first event off the list, where there is one. -/
theorem step_inputs {s t : State} (h : step s = .next t) : t.inputs = s.inputs.tail := by
  rcases step_cases s with ⟨hi, hs⟩ | ⟨rest, hi, hs⟩ | ⟨a, rest, hi, hs⟩ | ⟨rest, hi, hs⟩ <;> rw [hs] at h <;> rw [hi]
  · exact (sequencerStep_endsIdle h).2.trans hi
  · exact (sequencerStep_endsIdle h).2
  · cases h
    exact hostAccess_inputs a _
  · cases h
    rfl

/-- A run of n steps answers, with the first n events gone. -/
theorem run_drops_inputs (n : Nat) (s : State) :
    ∃ t, Sys2Proof.core.run n s = .next t ∧ t.inputs = s.inputs.drop n := by
  induction n generalizing s with
  | zero => exact ⟨s, rfl, rfl⟩
  | succ n ih =>
    obtain ⟨u, hu⟩ := stepAlwaysAnswersNext s
    obtain ⟨t, hrun, ht⟩ := ih u
    refine ⟨t, (run_succ hu).trans hrun, ?_⟩
    rw [ht, step_inputs hu, List.drop_tail]

/-! ## The end of a run -/

/-- A step with no event left ends the run. -/
theorem step_of_noInputs_runOver {s : State} (h : s.inputs = []) : ∃ t, step s = .next t ∧ RunOver t := by
  obtain ⟨t, ht⟩ := sequencerStep_answersNext s
  obtain ⟨hidle, hinputs⟩ := sequencerStep_endsIdle ht
  exact ⟨t, (step_of_noInputs h).trans ht, hinputs.trans h, hidle⟩

theorem step_of_runOver {s : State} (h : RunOver s) : step s = .next s := by
  obtain ⟨hnone, hidle⟩ := h
  rw [step_of_noInputs hnone, sequencerStep_of_idle hidle]

/-- Settles O10: the events listed go one per step, and the turn after them completes what still runs. -/
theorem runEndsIdle : Obligations.RunEndsIdle := by
  refine fun s => ⟨?_, step_of_runOver⟩
  obtain ⟨u, hrun, hinputs⟩ := run_drops_inputs s.inputs.length s
  obtain ⟨t, hstep, hover⟩ := step_of_noInputs_runOver (hinputs.trans List.drop_length)
  exact ⟨t, (run_add hrun).trans (run_succ hstep), hover⟩

end Sys2Proof.Machine
end

section
/-! A reset abandons the running command: until CMD is written again nothing completes (70_reset_and_hazards.md R262). -/

namespace Sys2Proof.Machine

/-! ## The offset of CMD -/

theorem registerAt_cmd {n : Nat} (h : registerAt n = some .cmd) : n = 0x00C := by
  have hrows : ∀ row ∈ registerTable, row.2 = .cmd → row.1 = 0x00C := by decide
  simp only [registerAt, Option.map_eq_some_iff] at h
  obtain ⟨row, hrow, hcmd⟩ := h
  have hoffset : row.1 = n := by simpa using List.find?_some hrow
  exact hoffset.symm.trans (hrows row (List.mem_of_find?_eq_some hrow) hcmd)

/-- CMD has one offset of the aperture (10_state.md R21). -/
theorem locate_cmd {bufSize : Nat} {addr : Offset} (h : locate bufSize addr = some .cmd) : addr = 0x00C := by
  have hregister : registerAt addr.toNat = some .cmd := by
    unfold locate locateAt at h
    split_ifs at h
    · exact h
    · cases h
    · cases h
  exact BitVec.eq_of_toNat_eq (registerAt_cmd hregister)

/-! ## Nothing runs and nothing has run -/

/-- No event listed writes CMD. -/
def NoCmdWrite (events : List Input) : Prop := ∀ bits v, Input.access (.write 0x00C bits v) ∉ events

/-- In t no command runs, nothing of one shows since the reset, and the random source stands where s left it. -/
structure NothingRan (s t : State) : Prop where
  seq : t.seq = .idle
  done : t.done = false
  err : t.err = .ok
  outLen : t.outLen = 0
  outBuf : t.outBuf = State.reset.outBuf
  rngCount : t.rngCount = s.rngCount
  rngAnswers : t.rngAnswers = s.rngAnswers

theorem nothingRan_resetLine (s : State) : NothingRan s (resetLine s) := ⟨rfl, rfl, rfl, rfl, rfl, rfl, rfl⟩

/-- Only a CMD write starts a command: every other write leaves it so. -/
theorem nothingRan_writeLocation {s t : State} (h : NothingRan s t) {l : Location} (hl : l ≠ .cmd) (v : Word) :
    NothingRan s (writeLocation l v t) := by
  have hdrop : NothingRan s { t with werr := true } := { h with }
  cases l with
  | cmd => exact absurd rfl hl
  | id | param | outLen | outWord => exact h
  | status => exact { h with done := by rw [writeLocation, writeStatus_done, h.done, Bool.false_and] }
  | ctrl | len | iv | inWord =>
    rw [writeLocation]
    exact unlessBusy_keeps (P := NothingRan s) hdrop fun _ => { h with }
  | ckey | ikey =>
    rw [writeLocation]
    exact unlessBusy_keeps (P := NothingRan s) hdrop fun _ => unlessLocked_keeps (P := NothingRan s) hdrop fun _ => { h with }

theorem nothingRan_hostAccess {s t : State} (h : NothingRan s t) {a : BusAccess}
    (ha : ∀ bits v, a ≠ .write 0x00C bits v) : NothingRan s (hostAccess a t) := by
  rcases hostAccess_cases a t with hr | ⟨addr, l, -, -, hr⟩ | ⟨addr, v, l, rfl, hl, hr⟩ <;> rw [hr]
  · exact { h with }
  · rw [readLocation_state]
    exact { h with }
  · have hnotCmd : l ≠ .cmd := by
      rintro rfl
      exact ha 32 v (by rw [locate_cmd hl])
    exact { nothingRan_writeLocation h hnotCmd v with }

/-- A step with no CMD write next: a turn in `idle` rests, an access starts nothing, and a further reset leaves the same. -/
theorem nothingRan_step {s t u : State} (h : NothingRan s t) (hcmd : NoCmdWrite t.inputs) (hstep : step t = .next u) :
    NothingRan s u := by
  rcases step_cases t with ⟨-, hs⟩ | ⟨rest, -, hs⟩ | ⟨a, rest, hi, hs⟩ | ⟨rest, -, hs⟩ <;> rw [hs] at hstep
  · cases (sequencerStep_of_idle h.seq).symm.trans hstep
    exact h
  · cases (sequencerStep_of_idle (s := { t with inputs := rest }) h.seq).symm.trans hstep
    exact { h with }
  · cases hstep
    refine nothingRan_hostAccess (t := { t with inputs := rest }) { h with } fun bits v hwrite => hcmd bits v ?_
    rw [hi, hwrite]
    exact List.mem_cons_self
  · cases hstep
    exact { nothingRan_resetLine t with rngCount := h.rngCount, rngAnswers := h.rngAnswers }

theorem noCmdWrite_step {t u : State} (hcmd : NoCmdWrite t.inputs) (hstep : step t = .next u) : NoCmdWrite u.inputs := by
  rw [step_inputs hstep]
  exact fun bits v hmem => hcmd bits v (List.mem_of_mem_tail hmem)

/-- Until the next CMD write nothing runs, however many steps are taken. -/
theorem nothingRan_run {s t u : State} {n : Nat} (h : NothingRan s t) (hcmd : NoCmdWrite t.inputs)
    (hrun : Sys2Proof.core.run n t = .next u) : NothingRan s u := by
  have hkept : NothingRan s u ∧ NoCmdWrite u.inputs :=
    run_keeps (P := fun t => NothingRan s t ∧ NoCmdWrite t.inputs)
      (fun _ _ ⟨hran, hno⟩ hstep => ⟨nothingRan_step hran hno hstep, noCmdWrite_step hno hstep⟩) n t u ⟨h, hcmd⟩ hrun
  exact hkept.1

/-- Settles O57: the reset leaves a state in which nothing ran, and every step without a CMD write keeps that. -/
theorem resetAbandonsTheCommand : Obligations.ResetAbandonsTheCommand := by
  intro s rest _ hinputs
  have hran : NothingRan s (resetLine { s with inputs := rest }) := { nothingRan_resetLine { s with inputs := rest } with }
  refine ⟨_, step_of_reset hinputs, rfl, hran.seq, hran.done, hran.err, hran.outLen,
    fun a => (State.reset_buffers_unspecified a).2, hran.rngCount, hran.rngAnswers, fun hnone => ?_, fun later hturn => ?_,
    fun hcmd n u hrun => ?_⟩
  · exact step_of_runOver ⟨hnone, rfl⟩
  · rw [step_of_sequencer (rest := later) hturn]
    exact sequencerStep_of_idle rfl
  · have hu := nothingRan_run hran hcmd hrun
    exact ⟨hu.seq, hu.done, hu.err, hu.outLen, fun a => hu.outBuf ▸ (State.reset_buffers_unspecified a).2, hu.rngCount,
      hu.rngAnswers⟩

end Sys2Proof.Machine
end
